-- ==== Sys2Proof/Word.lean ====
section
/-! DEFINITION. The plain types the whole model is written in: program text, register slot numbers, the entries of the
program store and the names of the four error kinds.

The machine has no word type and no bit vectors: R6 gives every slot, literal, output value and the program counter the
domain ℤ, so they are `Int`, and arithmetic on them is Lean's own, exact. -/

namespace Sys2Proof

/-- Program text, a token or one line of it: a list of Unicode characters (R5, R70). -/
abbrev Text := List Char

/-- The number of a register slot, 0 to 14 (R20). -/
abbrev Slot := Fin 15

/-- One write of a register slot as a change list records it: the slot's raw number and the value written (R157). -/
abbrev Change := Slot × Int

/-- An entry of the program store: the 1-based source line number and the comment-stripped, trimmed line (R33). -/
structure Entry where
  line : Nat
  text : Text
  deriving DecidableEq, Repr

/-- The four error kinds, a closed enumeration (R170). -/
inductive ErrorKind where
  /-- A fetched line is malformed (R171). -/
  | decodeError
  /-- A load while the mode is Unset (R172). -/
  | invalidState
  /-- The step budget is reached before the program completes (R173). -/
  | stepLimitExceeded
  /-- A fetch with a program counter outside the program store (R174). -/
  | runtimeFault
  deriving DecidableEq, Repr

end Sys2Proof
end

