-- ==== Sys2Proof/Syntax.lean ====
section
/-! DEFINITION. The instructions as syntax: one constructor per row of spec/opcode_table.json (R2, R86), their opcodes and
their formats (R75). -/

namespace Sys2Proof

/-- The fourteen decoded instructions (R82, R86). A variable index `k` is a natural number here and `Instr.wellFormed` asks
k ≤ 9 (R77); a value or a jump offset `n` is any integer (R78). -/
inductive Instr where
  /-- `+`: select Add mode (R100). -/
  | selectAdd
  /-- `-`: select Subtract mode (R101). -/
  | selectSubtract
  /-- `*`: select Multiply mode (R102). -/
  | selectMultiply
  /-- `/`: select Divide mode (R103; the table's row "ROW"). -/
  | selectDivide
  /-- `N k n`: set variable (R110). -/
  | setVariable (k : Nat) (n : Int)
  /-- `L k`: load into the first empty ingress operand (R111). -/
  | load (k : Nat)
  /-- `L' k`: load into the high-order ingress register (R112). -/
  | loadPrimed (k : Nat)
  /-- `S k`: store the low-order result (R113). -/
  | store (k : Nat)
  /-- `S' k`: store the high-order result (R114). -/
  | storePrimed (k : Nat)
  /-- `P k`: print variable (R115). -/
  | print (k : Nat)
  /-- `F n`: jump forward (R120). -/
  | jumpForward (n : Int)
  /-- `B n`: jump backward (R121). -/
  | jumpBackward (n : Int)
  /-- `?F n`: jump forward if runup (R122). -/
  | jumpForwardIfRunup (n : Int)
  /-- `?B n`: jump backward if runup (R123). -/
  | jumpBackwardIfRunup (n : Int)
  deriving DecidableEq, Repr

/-- The fourteen opcodes, in the order of the table (R86). -/
inductive Opcode where
  | selectAdd | selectSubtract | selectMultiply | selectDivide
  | setVariable | load | loadPrimed | store | storePrimed | print
  | jumpForward | jumpBackward | jumpForwardIfRunup | jumpBackwardIfRunup
  deriving DecidableEq, Repr

/-- The four instruction formats (R75). -/
inductive Format where
  /-- `OP` -/
  | t0
  /-- `OP k` -/
  | tk
  /-- `OP n` -/
  | tn
  /-- `OP k n` -/
  | tkn
  deriving DecidableEq, Repr

/-- The opcode of an instruction. -/
def Instr.opcode : Instr → Opcode
  | .selectAdd => .selectAdd
  | .selectSubtract => .selectSubtract
  | .selectMultiply => .selectMultiply
  | .selectDivide => .selectDivide
  | .setVariable _ _ => .setVariable
  | .load _ => .load
  | .loadPrimed _ => .loadPrimed
  | .store _ => .store
  | .storePrimed _ => .storePrimed
  | .print _ => .print
  | .jumpForward _ => .jumpForward
  | .jumpBackward _ => .jumpBackward
  | .jumpForwardIfRunup _ => .jumpForwardIfRunup
  | .jumpBackwardIfRunup _ => .jumpBackwardIfRunup

/-- The operands of an instruction as integers, in the order of its tokens (R75). -/
def Instr.operands : Instr → List Int
  | .selectAdd => []
  | .selectSubtract => []
  | .selectMultiply => []
  | .selectDivide => []
  | .setVariable k n => [(k : Int), n]
  | .load k => [(k : Int)]
  | .loadPrimed k => [(k : Int)]
  | .store k => [(k : Int)]
  | .storePrimed k => [(k : Int)]
  | .print k => [(k : Int)]
  | .jumpForward n => [n]
  | .jumpBackward n => [n]
  | .jumpForwardIfRunup n => [n]
  | .jumpBackwardIfRunup n => [n]

end Sys2Proof
end

