-- ==== Sys2Proof/WellFormed.lean ====
section
/-! DEFINITION. Which instruction terms are instructions of the machine. The only check is R77: a variable index lies in
0..9. Values and jump offsets are unrestricted (R78). -/

namespace Sys2Proof

/-- R77: a variable index operand satisfies 0 ≤ k ≤ 9. -/
def indexInRange (k : Nat) : Bool := decide (k ≤ 9)

/-- An instruction term that some line of program text decodes to (R77, R78). -/
def Instr.wellFormed : Instr → Bool
  | .selectAdd => true
  | .selectSubtract => true
  | .selectMultiply => true
  | .selectDivide => true
  | .setVariable k _ => indexInRange k
  | .load k => indexInRange k
  | .loadPrimed k => indexInRange k
  | .store k => indexInRange k
  | .storePrimed k => indexInRange k
  | .print k => indexInRange k
  | .jumpForward _ => true
  | .jumpBackward _ => true
  | .jumpForwardIfRunup _ => true
  | .jumpBackwardIfRunup _ => true

end Sys2Proof
end

