-- ==== Sys2Proof/Decode.lean ====
section
/-! DEFINITION. From program text to the executable list (R70 to R72), from one line to an instruction (R73 to R82), and
back: an encoder that writes the canonical line of an instruction. Everything is total and structurally recursive. -/

namespace Sys2Proof

/-! ### Lines (R70 to R72) -/

/-- The whitespace characters of R73 (D5): space, tab, carriage return, vertical tab and form feed. The newline is not one
of them: it separates lines (R70). -/
def isBlankChar (c : Char) : Bool :=
  c == ' ' || c == '\t' || c == '\r' || c == '\x0b' || c == '\x0c'

/-- R70: the lines of a text, separated at U+000A. A text that ends with a newline has one more, empty, line. -/
def splitLines : Text → List Text
  | [] => [[]]
  | c :: cs =>
    if c = '\n' then [] :: splitLines cs
    else
      match splitLines cs with
      | [] => [[c]]
      | l :: ls => (c :: l) :: ls

/-- R71: a line up to, not including, its first `#`. -/
def stripComment (l : Text) : Text := l.takeWhile (· != '#')

/-- A text without its leading whitespace. -/
def trimStart (l : Text) : Text := l.dropWhile isBlankChar

/-- A text without its leading and trailing whitespace (R72). -/
def trim (l : Text) : Text := (trimStart (trimStart l).reverse).reverse

/-- R71 and R72: a raw line with its comment removed, then trimmed. It is empty exactly for a blank line. -/
def stripLine (raw : Text) : Text := trim (stripComment raw)

/-- The executable list of raw lines whose first has source line number `n`: blank lines dropped, numbers kept (R72). -/
def numberLines : Nat → List Text → List Entry
  | _, [] => []
  | n, raw :: rest =>
    if stripLine raw = [] then numberLines (n + 1) rest
    else { line := n, text := stripLine raw } :: numberLines (n + 1) rest

/-- R72: the executable list of a program text. It never fails and decodes nothing. -/
def preprocess (text : Text) : List Entry := numberLines 1 (splitLines text)

/-! ### Tokens and integer literals (R73, R76) -/

/-- The tokens of the characters that follow the open token `cur`. -/
def tokensFrom (cur : Text) : Text → List Text
  | [] => if cur = [] then [] else [cur]
  | c :: cs =>
    if isBlankChar c then
      if cur = [] then tokensFrom [] cs else cur :: tokensFrom [] cs
    else tokensFrom (cur ++ [c]) cs

/-- R73: the tokens of a line, split at runs of whitespace. -/
def tokens (text : Text) : List Text := tokensFrom [] text

/-- The value of an ASCII decimal digit, U+0030 to U+0039 only (R76). -/
def digitValue? (c : Char) : Option Nat :=
  if 48 ≤ c.toNat ∧ c.toNat ≤ 57 then some (c.toNat - 48) else none

/-- The value of a run of digits that continues a number `acc`; none if some character is no digit. -/
def digitsFrom (acc : Nat) : Text → Option Nat
  | [] => some acc
  | c :: cs =>
    match digitValue? c with
    | some d => digitsFrom (10 * acc + d) cs
    | none => none

/-- One or more decimal digits, leading zeros allowed (R76). -/
def naturalLiteral? : Text → Option Nat
  | [] => none
  | c :: cs => digitsFrom 0 (c :: cs)

/-- R76: an optional sign, then one or more decimal digits, and nothing else. -/
def intLiteral? : Text → Option Int
  | '+' :: ds => (naturalLiteral? ds).map fun n => (n : Int)
  | '-' :: ds => (naturalLiteral? ds).map fun n => -(n : Int)
  | ds => (naturalLiteral? ds).map fun n => (n : Int)

/-- The values of the operand tokens; none if one of them is no integer literal (R80). -/
def intLiterals? : List Text → Option (List Int)
  | [] => some []
  | a :: as =>
    match intLiteral? a, intLiterals? as with
    | some v, some vs => some (v :: vs)
    | _, _ => none

/-! ### Opcodes (R74, R75, R86) -/

/-- The opcode token of each opcode (R86). The apostrophe is U+0027 and part of the token (R74). -/
def Opcode.mnemonic : Opcode → Text
  | .selectAdd => ['+']
  | .selectSubtract => ['-']
  | .selectMultiply => ['*']
  | .selectDivide => ['/']
  | .setVariable => ['N']
  | .load => ['L']
  | .loadPrimed => ['L', '\'']
  | .store => ['S']
  | .storePrimed => ['S', '\'']
  | .print => ['P']
  | .jumpForward => ['F']
  | .jumpBackward => ['B']
  | .jumpForwardIfRunup => ['?', 'F']
  | .jumpBackwardIfRunup => ['?', 'B']

/-- The opcodes in the order of the opcode map (R86). -/
def Opcode.all : List Opcode :=
  [.selectAdd, .selectSubtract, .selectMultiply, .selectDivide, .setVariable, .load, .loadPrimed, .store, .storePrimed,
    .print, .jumpForward, .jumpBackward, .jumpForwardIfRunup, .jumpBackwardIfRunup]

/-- R74: the opcode whose mnemonic the first token is, character for character. -/
def opcodeOf? (token : Text) : Option Opcode := Opcode.all.find? fun o => decide (o.mnemonic = token)

/-- The format of each opcode (R75). -/
def Opcode.format : Opcode → Format
  | .selectAdd => .t0
  | .selectSubtract => .t0
  | .selectMultiply => .t0
  | .selectDivide => .t0
  | .setVariable => .tkn
  | .load => .tk
  | .loadPrimed => .tk
  | .store => .tk
  | .storePrimed => .tk
  | .print => .tk
  | .jumpForward => .tn
  | .jumpBackward => .tn
  | .jumpForwardIfRunup => .tn
  | .jumpBackwardIfRunup => .tn

/-- The number of operand tokens a format has (R75). -/
def Format.arity : Format → Nat
  | .t0 => 0
  | .tk => 1
  | .tn => 1
  | .tkn => 2

/-- Whether the first operand of a format is a variable index (R75, R77). -/
def Format.takesIndex : Format → Bool
  | .t0 => false
  | .tk => true
  | .tn => false
  | .tkn => true

/-- R77: the value of a variable index operand lies in 0..9. -/
def indexValueInRange (v : Int) : Bool := decide (0 ≤ v ∧ v ≤ 9)

/-! ### The decoder (R80) -/

/-- The four causes of a DecodeError, in the order the decoder checks them (R80, R171). -/
inductive DecodeCause where
  | unknownOpcode
  | wrongOperandCount
  | notAnInteger
  | indexOutOfRange
  deriving DecidableEq, Repr

/-- The instruction of an opcode and its operand values (R82), once the checks of R80 have passed; a list of another
length is the wrong operand count. -/
def buildInstr : Opcode → List Int → Except DecodeCause Instr
  | .selectAdd, [] => .ok .selectAdd
  | .selectSubtract, [] => .ok .selectSubtract
  | .selectMultiply, [] => .ok .selectMultiply
  | .selectDivide, [] => .ok .selectDivide
  | .setVariable, [k, n] => .ok (.setVariable k.toNat n)
  | .load, [k] => .ok (.load k.toNat)
  | .loadPrimed, [k] => .ok (.loadPrimed k.toNat)
  | .store, [k] => .ok (.store k.toNat)
  | .storePrimed, [k] => .ok (.storePrimed k.toNat)
  | .print, [k] => .ok (.print k.toNat)
  | .jumpForward, [n] => .ok (.jumpForward n)
  | .jumpBackward, [n] => .ok (.jumpBackward n)
  | .jumpForwardIfRunup, [n] => .ok (.jumpForwardIfRunup n)
  | .jumpBackwardIfRunup, [n] => .ok (.jumpBackwardIfRunup n)
  | _, _ => .error .wrongOperandCount

/-- The checks of R80 that follow the opcode's, in order: operand count, integer literals, index range. -/
def decodeOperands (o : Opcode) (args : List Text) : Except DecodeCause Instr :=
  if args.length = o.format.arity then
    match intLiterals? args with
    | none => .error .notAnInteger
    | some vs =>
      if o.format.takesIndex && !(vs.headD 0 |> indexValueInRange) then .error .indexOutOfRange
      else buildInstr o vs
  else .error .wrongOperandCount

/-- R80: the decoder, a pure function of an entry's text. A text without tokens, which preprocessing never hands over
(R72), has no opcode. -/
def decode (text : Text) : Except DecodeCause Instr :=
  match tokens text with
  | [] => .error .unknownOpcode
  | op :: args =>
    match opcodeOf? op with
    | none => .error .unknownOpcode
    | some o => decodeOperands o args

/-! ### The encoder -/

/-- The decimal digit character of a number below 10. -/
def digitChar (d : Nat) : Char := Char.ofNat (48 + d)

/-- The decimal digits of `n` before `rest`, with fuel for at least one more digit than `n` has. -/
def decimalFrom : Nat → Nat → Text → Text
  | 0, _, rest => rest
  | fuel + 1, n, rest =>
    if n < 10 then digitChar n :: rest
    else decimalFrom fuel (n / 10) (digitChar (n % 10) :: rest)

/-- The decimal digits of a natural number, without leading zeros. -/
def decimal (n : Nat) : Text := decimalFrom (n + 1) n []

/-- The canonical literal of an integer: no plus sign, no leading zeros (log 9; R76 allows more forms). -/
def encodeInt (v : Int) : Text :=
  match v with
  | .ofNat n => decimal n
  | .negSucc n => '-' :: decimal (n + 1)

/-- The tokens of an instruction's line: its mnemonic, then its operands (R75). -/
def encodeTokens (i : Instr) : List Text := i.opcode.mnemonic :: i.operands.map encodeInt

/-- Tokens joined by single spaces (log 9; R73 allows any run of whitespace). -/
def joinTokens : List Text → Text
  | [] => []
  | [t] => t
  | t :: ts => t ++ ' ' :: joinTokens ts

/-- The canonical line of an instruction (R75, R86). -/
def encode (i : Instr) : Text := joinTokens (encodeTokens i)

/-- The canonical program text of a list of instructions: one line each, every line ended by a newline (R70, R84). -/
def encodeProgram : List Instr → Text
  | [] => []
  | i :: is => encode i ++ '\n' :: encodeProgram is

/-! ### Lines as numbers

The spec has no binary encoding (R5, D3). Where the host numbers an instruction's bits, a line is laid out one character a
byte, the first character in the least significant byte; a zero byte ends it (log 7). -/

/-- The characters of at most `count` bytes of `w`, least significant byte first, up to the first zero byte. -/
def textOfBytes : Nat → Nat → Text
  | 0, _ => []
  | count + 1, w => if w % 256 = 0 then [] else Char.ofNat (w % 256) :: textOfBytes count (w / 256)

/-- The line of program text that the low `nbits` bits of `w` spell, as preprocessing would store it (log 7). -/
def lineOfWord (nbits w : Nat) : Text := stripLine (textOfBytes ((nbits + 7) / 8) w)

/-- The instruction the decoder reads from an instruction whose bits are `w` (log 7). -/
def decodeTableWord (nbits w : Nat) : Option Instr :=
  match decode (lineOfWord nbits w) with
  | .ok i => some i
  | .error _ => none

end Sys2Proof
end

