-- ==== Sys2Proof/Config.lean ====
section
/-! DEFINITION. What an implementation or a run fixes, and the free values.

MAX_STEPS and TRACE_ALU_CHANGES are configuration a run sets (R8, R9, R37); a model takes them as arguments (D10, D11), so
they are fields of State that no step writes, and only the default of the first stands here. -/

namespace Sys2Proof.Config

/-- The default of MAX_STEPS (R8). -/
abbrev defaultMaxSteps : Nat := 1000

/-- FREE VALUE (log 5; R170, D14, U3): the human-readable message of an error record. The spec gives no text, so this has
no body: it may depend on the run's draw, the error's kind and line, and the program. -/
opaque errorMessage (draw : Nat) (kind : ErrorKind) (line : Nat) (prog : List Entry) : String

/-- FREE VALUE (log 8): the line an error would report in a state that holds no trace record for the step R152 or R159
names. No run reaches such a state, and the spec gives no line there. -/
opaque unstatedLine (draw : Nat) : Nat

end Sys2Proof.Config
end

