-- ==== Sys2Proof/Machine/State.lean ====
section
/-! DEFINITION. The state of the machine (R41), its reset value (R40, R200), and the reasons a step can stop.

State is plain data. Every piece of state of 10_state.md is a field; the two configuration parameters of R37 are fields no
step writes; `draw` is the model's own (log 5). -/

namespace Sys2Proof.Machine

/-- The arithmetic mode latch's five values (R25). -/
inductive Mode where
  | unset | add | subtract | multiply | divide
  deriving DecidableEq, Repr

/-- The run status (R36). -/
inductive Status where
  /-- The run goes on. -/
  | running
  /-- Normal completion (R158). -/
  | done
  /-- The run failed with this kind at this source line (R160). -/
  | error (kind : ErrorKind) (line : Nat)
  deriving DecidableEq, Repr

/-- One record of the execution trace, with the seven fields of R35. -/
structure TraceRecord where
  /-- The 0-based index of the step. -/
  step : Nat
  /-- The mode after the step. -/
  mode : Mode
  /-- The runup latch after the step. -/
  runup : Bool
  /-- The source line number of the instruction executed. -/
  line : Nat
  /-- The register writes of the step (R157). -/
  changes : List Change
  /-- The instruction text executed. -/
  text : Text
  /-- The full register snapshot after the step. -/
  regs : Vector Int 15
  deriving DecidableEq, Repr

/-- The state of the CORE (R41), with its program store and its configuration. -/
structure State where
  /-- The register file: slots IP, I1, I2, EP, E, V[0]..V[9] (R20, R21). -/
  x : Vector Int 15
  /-- The arithmetic mode latch (R25). -/
  mode : Mode
  /-- The runup (overflow) latch (R28). -/
  runup : Bool
  /-- The program counter, an instruction index in ℤ (R30). -/
  pc : Int
  /-- The step counter (R32). -/
  steps : Nat
  /-- The output buffer (R34). -/
  out : List Int
  /-- The trace buffer (R35). -/
  trace : List TraceRecord
  /-- The run status (R36). -/
  status : Status
  /-- The program store (R33). -/
  prog : List Entry
  /-- The parameter MAX_STEPS (R8; log 2). -/
  maxSteps : Nat
  /-- The parameter TRACE_ALU_CHANGES (R9; log 3). -/
  traceAluChanges : Bool
  /-- The MODEL's own: the number the free error message is drawn with (log 5). No step changes it. -/
  draw : Nat
  deriving DecidableEq, Repr

/-- The reasons a step stops without a next state. -/
inductive Fault where
  /-- Raised by `step` in a state whose status is Done or Error: "No step is defined from either" (R163; log 6). Safe: a
  run is over there, and nothing the spec describes follows. -/
  | runIsOver
  deriving DecidableEq, Repr

/-- The reasons an instruction is refused. No arm of `exec` and no meaning answers with one: every instruction has its
meaning. -/
inductive Refusal where
  /-- Raised by an arm of `exec` whose instruction has no meaning yet; no arm does. Safe. -/
  | notModelled (mnemonic : String)
  deriving DecidableEq, Repr

/-- The machine right after reset (R40, R200, R201). The program store is not reset by the spec and is empty here, as no
program text has been handed over (log 4); MAX_STEPS has its default (R8, log 2); TRACE_ALU_CHANGES, open in the spec, is
false (DESIGN CHOICE, log 3); the draw is 0 (DESIGN CHOICE, log 5). -/
def State.reset : State where
  x := Vector.replicate 15 0
  mode := .unset
  runup := false
  pc := 0
  steps := 0
  out := []
  trace := []
  status := .running
  prog := []
  maxSteps := Config.defaultMaxSteps
  traceAluChanges := false
  draw := 0

end Sys2Proof.Machine
end

