-- ==== Sys2Proof/Machine/Ops.lean ====
section
/-! DEFINITION. The named operations over the state: register slots, the output channel, the program store, the lines an
error reports, the ways a run ends, and TAKING AN ERROR as one shared operation. -/

namespace Sys2Proof.Machine

/-! ### Registers and output -/

/-- Read a register slot. Every slot always holds a value, and reading never fails (R24). -/
def State.read (s : State) (i : Slot) : Int := s.x[i]

/-- Write a register slot, whole (R54). No slot is hardwired (R23). -/
def State.write (s : State) (i : Slot) (v : Int) : State := { s with x := s.x.set i v }

/-- Write register slots in the order given. -/
def State.writeAll : State → List Change → State
  | s, [] => s
  | s, c :: cs => (s.write c.1 c.2).writeAll cs

/-- Append a value to the output buffer (R34, R115). -/
def State.emit (s : State) (v : Int) : State := { s with out := s.out ++ [v] }

/-! ### The program store and the program counter -/

/-- The entry of the program store at `pc` (R152): none when `pc` is below 0 or at or above the store's length. -/
def State.currentEntry (s : State) : Option Entry := if s.pc < 0 then none else s.prog[s.pc.toNat]?

/-- The default advance of the program counter (R155). -/
def State.advance (s : State) : State := { s with pc := s.pc + 1 }

/-- The loop test of R151: `pc < len(prog) and steps < MAX_STEPS`. -/
def State.loopTest (s : State) : Bool := decide (s.pc < s.prog.length ∧ s.steps < s.maxSteps)

/-! ### The lines errors report -/

/-- The source line in the trace record of the `n`-th executed instruction, counted from 1. Where the trace has no such
record, in states no run reaches, the line is a free value (log 8). -/
def State.lineOfStep (s : State) (n : Nat) : Nat :=
  match n with
  | 0 => Config.unstatedLine s.draw
  | m + 1 =>
    match s.trace[m]? with
    | some r => r.line
    | none => Config.unstatedLine s.draw

/-- R152: the source line of the last executed instruction, `trace[steps-1].line`. -/
def State.lastLine (s : State) : Nat := s.lineOfStep s.steps

/-- R159: the line StepLimitExceeded reports: of the last executed instruction, `trace[MAX_STEPS-1].line`, or of the
instruction at `pc` when MAX_STEPS is 0. -/
def State.limitLine (s : State) : Nat :=
  if s.maxSteps = 0 then
    match s.currentEntry with
    | some e => e.line
    | none => Config.unstatedLine s.draw
  else s.lineOfStep s.maxSteps

/-! ### Taking an error, and the end of a run -/

/-- TAKING AN ERROR (R160, R175, R177): the status becomes Error with this kind and line, and nothing else changes: no
state is saved, no handler runs, and there is no return from it (R178). -/
def State.raise (kind : ErrorKind) (line : Nat) (s : State) : State := { s with status := .error kind line }

/-- The end test of R151, when the loop test fails: normal completion at or above the program's end (R158), else
StepLimitExceeded (R159). -/
def State.endRun (s : State) : State :=
  if s.pc < s.prog.length then s.raise .stepLimitExceeded s.limitLine else { s with status := .done }

end Sys2Proof.Machine
end

