-- ==== Sys2Proof/Machine/Operands.lean ====
section
/-! DEFINITION. The operand forms: the register slots an opcode names implicitly (R21), and the variable index, the only
data address (R51). -/

namespace Sys2Proof.Machine

/-- `x[0]`, ingress_prime: the high half of the Divide dividend (R21). -/
abbrev slotIP : Slot := 0

/-- `x[1]`, ingress_1 (R21). -/
abbrev slotI1 : Slot := 1

/-- `x[2]`, ingress_2 (R21). -/
abbrev slotI2 : Slot := 2

/-- `x[3]`, egress_prime: the high-order or quotient result (R21). -/
abbrev slotEP : Slot := 3

/-- `x[4]`, egress: the low-order or remainder result (R21). -/
abbrev slotE : Slot := 4

/-- `x[5+k]`, the slot of variable `k` (R21): none for an index above 9, which the decoder refuses (R77). -/
def variableSlot? (k : Nat) : Option Slot := if h : k ≤ 9 then some ⟨5 + k, by omega⟩ else none

/-- The value of IP. -/
def State.ip (s : State) : Int := s.read slotIP

/-- The value of I1. -/
def State.i1 (s : State) : Int := s.read slotI1

/-- The value of I2. -/
def State.i2 (s : State) : Int := s.read slotI2

/-- The value of EP. -/
def State.ep (s : State) : Int := s.read slotEP

/-- The value of E. -/
def State.e (s : State) : Int := s.read slotE

/-- R111: the slot `L` writes: I1 while it holds 0, else I2 (the zero-as-empty quirk, R208). -/
def State.loadTarget (s : State) : Slot := if s.i1 = 0 then slotI1 else slotI2

end Sys2Proof.Machine
end

