-- ==== Sys2Proof/Machine/Flags.lean ====
section
/-! DEFINITION. The post-instruction arithmetic evaluation (R130 to R140): what each mode writes to the egress slots, when
it sets the runup latch, and the numeric code of the mode latch (R26). All arithmetic is exact on ℤ (R138). -/

namespace Sys2Proof.Machine

/-- The overflow threshold of the Add and Divide runup tests (R7). -/
def overflowThreshold : Int := 99999

/-- The decimal radix between the high-order and the low-order half (R7). -/
def radix : Int := 100000

/-- Floor division, rounded toward −∞ (R11; the spec's decision D2). -/
def fdiv (a b : Int) : Int := Int.fdiv a b

/-- The floor remainder: 0 or the sign of the divisor (R11; the spec's decision D2). -/
def fmod (a b : Int) : Int := Int.fmod a b

/-- R135: the dividend, composed from its high and low halves as they stand. -/
def State.dividend (s : State) : Int := s.ip * radix + s.i1

/-- R130 to R135 and R139: the register writes of the evaluation in the latched mode, in the order its pseudocode makes
them. Unset writes nothing, and so does Divide by 0. -/
def evalWrites (s : State) : List Change :=
  match s.mode with
  | .unset => []
  | .add => [(slotE, s.i1 + s.i2)]
  | .subtract => [(slotE, s.i1 - s.i2)]
  | .multiply => [(slotE, fmod (s.i1 * s.i2) radix), (slotEP, fdiv (s.i1 * s.i2) radix)]
  | .divide => if s.i2 = 0 then [] else [(slotEP, fdiv s.dividend s.i2), (slotE, fmod s.dividend s.i2)]

/-- R132 to R135: whether the evaluation in the latched mode sets runup. Multiply never does (R134, C5). -/
def evalTrips (s : State) : Bool :=
  match s.mode with
  | .unset => false
  | .add => decide (overflowThreshold < |s.i1 + s.i2|)
  | .subtract => decide (s.i1 - s.i2 < 0)
  | .multiply => false
  | .divide => decide (s.i2 = 0) || decide (overflowThreshold < fdiv s.dividend s.i2)

/-- R130: the evaluation. It writes only E, EP and runup, and it never clears runup (R136). -/
def evaluate (s : State) : State :=
  let t := s.writeAll (evalWrites s)
  { t with runup := s.runup || evalTrips s }

/-- The 3-bit code of the mode latch, wherever it must be a number (R26, D13). -/
def Mode.code : Mode → BitVec 3
  | .unset => 0
  | .add => 1
  | .subtract => 2
  | .multiply => 3
  | .divide => 4

end Sys2Proof.Machine
end

