-- ==== Sys2Proof/Machine/Sequencer.lean ====
section
/-! DEFINITION. The sequencer's part of a step (R152 to R157): fetch and decode before the instruction proper; evaluation,
program-counter advance, trace record and step count after it.

`exec` is the whole of an instruction's step after its decode; the instruction proper answers an `Effect`, whose fields are
the step's transient values (R38). -/

namespace Sys2Proof.Machine

/-- What an instruction proper leaves (R154): the state, the *taken* flag of a taken jump (R155), and its change list
(R157). -/
structure Effect where
  state : State
  taken : Bool
  changes : List Change
  deriving DecidableEq, Repr

/-- The effect of an instruction proper that writes one slot, which it records whether or not the value changed (R157). -/
def writeSlot (s : State) (i : Slot) (v : Int) : Effect :=
  { state := s.write i v, taken := false, changes := [(i, v)] }

/-- The effect of an instruction proper that writes no slot. -/
def noWrite (s : State) : Effect := { state := s, taken := false, changes := [] }

/-- The effect of a taken jump to an instruction index (R120, R155). -/
def jumpTo (s : State) (target : Int) : Effect :=
  { state := { s with pc := target }, taken := true, changes := [] }

/-- An instruction proper over the slot of variable `k`. An index above 9 comes from no line of text, since the decoder
refuses it with DecodeError (R77); an instruction term that holds one takes that error here (log 10). -/
def withVariable (k : Nat) (f : Slot → Except ErrorKind Effect) : Except ErrorKind Effect :=
  match variableSlot? k with
  | some i => f i
  | none => .error .decodeError

/-- R111, R112: a load runs only with a mode set; otherwise it fails before any write. -/
def requireMode (s : State) (f : Except ErrorKind Effect) : Except ErrorKind Effect :=
  if s.mode = .unset then .error .invalidState else f

/-- The change list of the whole step: the instruction proper's entries, then the evaluation's when TRACE_ALU_CHANGES is
set (R139, R157). -/
def stepChanges (f : Effect) : List Change :=
  f.changes ++ (if f.state.traceAluChanges then evalWrites f.state else [])

/-- R156: append the trace record of the step of entry `e`, then count the step. -/
def retire (e : Entry) (changes : List Change) (s : State) : State :=
  { s with
    trace := s.trace ++
      [{ step := s.steps, mode := s.mode, runup := s.runup, line := e.line, changes := changes, text := e.text,
         regs := s.x }]
    steps := s.steps + 1 }

/-- R154 to R156: what follows the instruction proper of entry `e`: the evaluation, the advance unless a jump was taken,
the trace record and the count. -/
def finishStep (e : Entry) (f : Effect) : State :=
  let s := evaluate f.state
  retire e (stepChanges f) (if f.taken then s else s.advance)

/-- One executed instruction (R154 to R160): its instruction proper, then `finishStep`, or the error it raises with the
line of the instruction at `pc`. Without an instruction at `pc`, where `step` never executes one, it is the internal
failure R174 reports as RuntimeFault (log 8). -/
def execute (s : State) (proper : Except ErrorKind Effect) : Host.Outcome State Fault Refusal :=
  match s.currentEntry with
  | none => .next (s.raise .runtimeFault s.lastLine)
  | some e =>
    match proper with
    | .ok f => .next (finishStep e f)
    | .error kind => .next (s.raise kind e.line)

/-- R152 and R153: fetch and decode at `pc`: the instruction, or the error kind and line with which the step fails. With
the loop test held, the entry is missing exactly when `pc` is below 0. -/
def fetchDecode (s : State) : Except (ErrorKind × Nat) Instr :=
  match s.currentEntry with
  | none => .error (.runtimeFault, s.lastLine)
  | some e =>
    match decode e.text with
    | .ok i => .ok i
    | .error _ => .error (.decodeError, e.line)

end Sys2Proof.Machine
end

