-- ==== Sys2Proof/Machine/ControlTransfer.lean ====
section
/-! DEFINITION. The control-transfer instructions (42_control_transfer.md, R120 to R125). A target is not checked when the
jump executes; the next step acts on it (R151, R152). -/

namespace Sys2Proof.Machine

/-- `F n`: jump forward (R120). -/
def execJumpForward (n : Int) (s : State) : Host.Outcome State Fault Refusal :=
  execute s (.ok (jumpTo s (s.pc + n)))

/-- `B n`: jump backward (R121). -/
def execJumpBackward (n : Int) (s : State) : Host.Outcome State Fault Refusal :=
  execute s (.ok (jumpTo s (s.pc - n)))

/-- `?F n`: jump forward if runup, as the previous step left it (R122, R205). -/
def execJumpForwardIfRunup (n : Int) (s : State) : Host.Outcome State Fault Refusal :=
  execute s (.ok (if s.runup then jumpTo s (s.pc + n) else noWrite s))

/-- `?B n`: jump backward if runup, as the previous step left it (R123, R205). -/
def execJumpBackwardIfRunup (n : Int) (s : State) : Host.Outcome State Fault Refusal :=
  execute s (.ok (if s.runup then jumpTo s (s.pc - n) else noWrite s))

end Sys2Proof.Machine
end

