-- ==== Sys2Proof/Machine/DataTransfer.lean ====
section
/-! DEFINITION. The data-transfer instructions (41_data_transfer.md, R110 to R116). -/

namespace Sys2Proof.Machine

/-- `N k n`: set variable (R110). It needs no mode. -/
def execSetVariable (k : Nat) (n : Int) (s : State) : Host.Outcome State Fault Refusal :=
  execute s (withVariable k fun v => .ok (writeSlot s v n))

/-- `L k`: load variable `k` into I1 while it holds 0, else into I2 (R111); InvalidState in Unset mode (R172). -/
def execLoad (k : Nat) (s : State) : Host.Outcome State Fault Refusal :=
  execute s (withVariable k fun v => requireMode s (.ok (writeSlot s s.loadTarget (s.read v))))

/-- `L' k`: load variable `k` into IP (R112); InvalidState in Unset mode (R172). -/
def execLoadPrimed (k : Nat) (s : State) : Host.Outcome State Fault Refusal :=
  execute s (withVariable k fun v => requireMode s (.ok (writeSlot s slotIP (s.read v))))

/-- `S k`: store E, as the previous step's evaluation left it (R113, R204). It needs no mode. -/
def execStore (k : Nat) (s : State) : Host.Outcome State Fault Refusal :=
  execute s (withVariable k fun v => .ok (writeSlot s v s.e))

/-- `S' k`: store EP, as the previous step's evaluation left it (R114, R204). It needs no mode. -/
def execStorePrimed (k : Nat) (s : State) : Host.Outcome State Fault Refusal :=
  execute s (withVariable k fun v => .ok (writeSlot s v s.ep))

/-- `P k`: append V[k] to the output (R115). It writes no register and needs no mode. -/
def execPrint (k : Nat) (s : State) : Host.Outcome State Fault Refusal :=
  execute s (withVariable k fun v => .ok (noWrite (s.emit (s.read v))))

end Sys2Proof.Machine
end

