-- ==== Sys2Proof/Machine/ModeSelect.lean ====
section
/-! DEFINITION. The mode-select instructions (40_mode_select.md, R100 to R104). Each writes the mode and clears runup; the
evaluation of its own step then runs in the new mode and may set runup again (R104, C6). -/

namespace Sys2Proof.Machine

/-- The instruction proper of a mode-select (R100 to R103): it clears runup even when the mode is already latched. -/
def selectMode (m : Mode) (s : State) : Effect := noWrite { s with mode := m, runup := false }

/-- `+`: select Add mode (R100). -/
def execSelectAdd (s : State) : Host.Outcome State Fault Refusal := execute s (.ok (selectMode .add s))

/-- `-`: select Subtract mode (R101). -/
def execSelectSubtract (s : State) : Host.Outcome State Fault Refusal := execute s (.ok (selectMode .subtract s))

/-- `*`: select Multiply mode (R102). -/
def execSelectMultiply (s : State) : Host.Outcome State Fault Refusal := execute s (.ok (selectMode .multiply s))

/-- `/`: select Divide mode (R103). -/
def execSelectDivide (s : State) : Host.Outcome State Fault Refusal := execute s (.ok (selectMode .divide s))

end Sys2Proof.Machine
end

