-- ==== Sys2Proof/Machine/Dispatch.lean ====
section
/-! DEFINITION. One arm per instruction of the closed vocabulary (R2, R86). -/

namespace Sys2Proof.Machine

/-- The step of a decoded instruction (R154 to R157): the instruction proper, the evaluation, the advance, the trace record
and the count; or the error it raises. -/
def exec (i : Instr) (s : State) : Host.Outcome State Fault Refusal :=
  match i with
  | .selectAdd => Sys2Proof.Machine.execSelectAdd s
  | .selectSubtract => Sys2Proof.Machine.execSelectSubtract s
  | .selectMultiply => Sys2Proof.Machine.execSelectMultiply s
  | .selectDivide => Sys2Proof.Machine.execSelectDivide s
  | .setVariable k n => Sys2Proof.Machine.execSetVariable k n s
  | .load k => Sys2Proof.Machine.execLoad k s
  | .loadPrimed k => Sys2Proof.Machine.execLoadPrimed k s
  | .store k => Sys2Proof.Machine.execStore k s
  | .storePrimed k => Sys2Proof.Machine.execStorePrimed k s
  | .print k => Sys2Proof.Machine.execPrint k s
  | .jumpForward n => Sys2Proof.Machine.execJumpForward n s
  | .jumpBackward n => Sys2Proof.Machine.execJumpBackward n s
  | .jumpForwardIfRunup n => Sys2Proof.Machine.execJumpForwardIfRunup n s
  | .jumpBackwardIfRunup n => Sys2Proof.Machine.execJumpBackwardIfRunup n s

end Sys2Proof.Machine
end

