-- ==== Sys2Proof/Machine/Step.lean ====
section
/-! DEFINITION. One step of a run, and the placement of one instruction where the next step fetches. -/

namespace Sys2Proof.Machine

/-- One transition of a run (R150, R151, R164): while Running, the loop test; if it holds, fetch, decode and execute, or
the error of the first check that fails (R176); if it fails, the end test (log 6). From Done or Error no step is
defined (R163). -/
def step (s : State) : Host.Outcome State Fault Refusal :=
  match s.status with
  | .running =>
    if s.loopTest then
      match fetchDecode s with
      | .ok i => exec i s
      | .error (kind, line) => .next (s.raise kind line)
    else .next s.endRun
  | .done => .fault .runIsOver
  | .error _ _ => .fault .runIsOver

/-- The program store with `text` as the line at instruction index `n`: in place of the entry there, or after the store's
end, repeated up to that index. -/
def placeLine (prog : List Entry) (n : Nat) (text : Text) : List Entry :=
  match prog[n]? with
  | some e => prog.set n { line := e.line, text := text }
  | none => prog ++ List.replicate (n + 1 - prog.length) { line := n + 1, text := text }

/-- `s` with the instruction whose bits are `w` (log 7) in the program store at `pc`, so that the next step fetches it: the
run going on, `pc` not below 0, and a step left in the budget. -/
def State.withFetchWord (s : State) (nbits w : Nat) : State :=
  { s with
    prog := placeLine s.prog s.pc.toNat (lineOfWord nbits w)
    pc := if s.pc < 0 then 0 else s.pc
    status := .running
    maxSteps := if s.steps < s.maxSteps then s.maxSteps else s.steps + 1 }

end Sys2Proof.Machine
end

