-- ==== Sys2Proof/Machine/Ports.lean ====
section
/-! DEFINITION. The ports of the CORE (R187): START hands over PROGRAM and CONFIG, RESULT and ERROR deliver what a run
answers. Also the numeric codes of the outcomes (R170) and the whole run (R150). -/

namespace Sys2Proof.Machine

/-- R200: the reset operation. Every piece of state takes its value of R40; the program store is not reset, and the
configuration is not state (R37). -/
def State.resetRun (s : State) : State :=
  { State.reset with
    prog := s.prog, maxSteps := s.maxSteps, traceAluChanges := s.traceAluChanges, draw := s.draw }

/-- The START port (R150, R187): reset, then preprocessing of the program text, under the configuration handed over. -/
def State.start (text : Text) (maxSteps : Nat) (traceAluChanges : Bool) (draw : Nat) : State :=
  { State.reset with
    prog := preprocess text, maxSteps := maxSteps, traceAluChanges := traceAluChanges, draw := draw }

/-- R162: the success result: the trace, the output, and the final register snapshot. -/
structure SuccessResult where
  trace : List TraceRecord
  out : List Int
  registers : Vector Int 15
  deriving DecidableEq, Repr

/-- R170: an error record. -/
structure ErrorRecord where
  kind : ErrorKind
  line : Nat
  message : String
  deriving DecidableEq, Repr

/-- What a run hands back: exactly one of the RESULT and ERROR ports (R187). -/
inductive RunResult where
  | success (r : SuccessResult)
  | failure (r : ErrorRecord)
  deriving DecidableEq, Repr

/-- What the ports carry in a state (R161, R162, R187): nothing before the end of the run; on success the triple; on
failure the error record alone, the partial trace and output discarded, its message a free value (log 5). -/
def State.result (s : State) : Option RunResult :=
  match s.status with
  | .running => none
  | .done => some (.success { trace := s.trace, out := s.out, registers := s.x })
  | .error kind line =>
    some (.failure { kind := kind, line := line, message := Config.errorMessage s.draw kind line s.prog })

/-- The code of an error kind (R170, D14). -/
def errorCode : ErrorKind → Nat
  | .decodeError => 1
  | .invalidState => 2
  | .stepLimitExceeded => 3
  | .runtimeFault => 4

/-- The code of a run's outcome: 0 for success, else the error kind's (R170, D14). -/
def RunResult.code : RunResult → Nat
  | .success _ => 0
  | .failure r => errorCode r.kind

/-- The state after at most `n` steps, fewer when the run is over. -/
def State.runFor : Nat → State → State
  | 0, s => s
  | n + 1, s =>
    match step s with
    | .next t => t.runFor n
    | .fault _ => s
    | .refused _ => s

/-- R150: a whole run. MAX_STEPS executed instructions and one end test always suffice (R163). -/
def runProgram (text : Text) (maxSteps : Nat) (traceAluChanges : Bool) (draw : Nat) : Option RunResult :=
  ((State.start text maxSteps traceAluChanges draw).runFor (maxSteps + 1)).result

end Sys2Proof.Machine
end

