-- ==== Sys2Proof/Safety.lean ====
section
/-! DEFINITION. The terms claims are stated in: safe runs, the classes of instructions the rules speak of, what a completed
instruction leaves in the spec's own words (independent of the functions that compute it), and the invariants of reachable
states. -/

namespace Sys2Proof

/-- The instruction is a mode-select (40_mode_select.md). -/
def Instr.isModeSelect (i : Instr) : Prop :=
  i = .selectAdd ∨ i = .selectSubtract ∨ i = .selectMultiply ∨ i = .selectDivide

/-- The instruction is a load (R111, R112). -/
def Instr.isLoad (i : Instr) : Prop := ∃ k, i = .load k ∨ i = .loadPrimed k

/-- The instruction is a conditional jump (R122, R123). -/
def Instr.isConditionalJump (i : Instr) : Prop := ∃ n, i = .jumpForwardIfRunup n ∨ i = .jumpBackwardIfRunup n

/-- An entry as preprocessing builds it (R72): not blank, without a comment, trimmed, with a 1-based line number. -/
def entryWf (e : Entry) : Bool := e.text != [] && stripLine e.text == e.text && decide (1 ≤ e.line)

/-- The canonical form of a program store (R72): its entries well-formed, their line numbers strictly rising. -/
def programWf (prog : List Entry) : Bool := prog.all entryWf && decide (prog.Pairwise fun a b => a.line < b.line)

/-! ### What a line decodes to, format by format (R75 to R80) -/

/-- Lines of format T0: the opcode token alone is `i`, any operand token is an error. -/
def DecodesT0 (op : Text) (i : Instr) : Prop :=
  ∀ text args, tokens text = op :: args →
    decode text = if args = [] then .ok i else .error .wrongOperandCount

/-- Lines of format TK: one operand, an integer literal with value in 0..9. -/
def DecodesTK (op : Text) (mk : Nat → Instr) : Prop :=
  ∀ text args, tokens text = op :: args →
    decode text =
      match args with
      | [a] =>
        match intLiteral? a with
        | some k => if 0 ≤ k ∧ k ≤ 9 then .ok (mk k.toNat) else .error .indexOutOfRange
        | none => .error .notAnInteger
      | _ => .error .wrongOperandCount

/-- Lines of format TN: one operand, any integer literal. -/
def DecodesTN (op : Text) (mk : Int → Instr) : Prop :=
  ∀ text args, tokens text = op :: args →
    decode text =
      match args with
      | [a] =>
        match intLiteral? a with
        | some n => .ok (mk n)
        | none => .error .notAnInteger
      | _ => .error .wrongOperandCount

/-- Lines of format TKN: an integer literal with value in 0..9, then any integer literal. -/
def DecodesTKN (op : Text) (mk : Nat → Int → Instr) : Prop :=
  ∀ text args, tokens text = op :: args →
    decode text =
      match args with
      | [a, b] =>
        match intLiteral? a, intLiteral? b with
        | some k, some n => if 0 ≤ k ∧ k ≤ 9 then .ok (mk k.toNat n) else .error .indexOutOfRange
        | _, _ => .error .notAnInteger
      | _ => .error .wrongOperandCount

namespace Machine

/-- A run that has not failed (R163). -/
def State.Safe (s : State) : Prop := ∀ kind line, s.status ≠ .error kind line

/-- The slot of variable `k`, `x[5+k]` (R21). -/
def varSlot (k : Fin 10) : Slot := ⟨5 + k.val, by omega⟩

/-! ### What a completed instruction leaves -/

/-- `t` holds what `s` holds in every slot outside `slots`. -/
def SameOutside (slots : List Slot) (s t : State) : Prop := ∀ i, i ∉ slots → t.read i = s.read i

/-- The evaluation in `t`'s mode on `t`'s ingress values (R130 to R135), by what it leaves and not by how it computes it:
`s` holds the egress values before it, `runup` is the latch before it. A quotient or a high-order half is fixed by its
exact division law and the remainder's range, which for negative operands is the spec's decision D2. -/
def EvaluatedFrom (s : State) (runup : Bool) (t : State) : Prop :=
  match t.mode with
  | .unset => t.e = s.e ∧ t.ep = s.ep ∧ t.runup = runup
  | .add => t.e = t.i1 + t.i2 ∧ t.ep = s.ep ∧ (t.runup = true ↔ runup = true ∨ 99999 < |t.i1 + t.i2|)
  | .subtract => t.e = t.i1 - t.i2 ∧ t.ep = s.ep ∧ (t.runup = true ↔ runup = true ∨ t.i1 - t.i2 < 0)
  | .multiply => t.i1 * t.i2 = t.ep * 100000 + t.e ∧ 0 ≤ t.e ∧ t.e ≤ 99999 ∧ t.runup = runup
  | .divide =>
    if t.i2 = 0 then t.e = s.e ∧ t.ep = s.ep ∧ t.runup = true
    else
      t.ip * 100000 + t.i1 = t.ep * t.i2 + t.e ∧ |t.e| < |t.i2| ∧ 0 ≤ t.e * t.i2 ∧
        (t.runup = true ↔ runup = true ∨ 99999 < t.ep)

/-- R139: the change entries of the evaluation, read off the state it leaves. -/
def aluEntries (t : State) : List Change :=
  match t.mode with
  | .unset => []
  | .add => [(4, t.e)]
  | .subtract => [(4, t.e)]
  | .multiply => [(4, t.e), (3, t.ep)]
  | .divide => if t.i2 = 0 then [] else [(3, t.ep), (4, t.e)]

/-- R156 and R157: `t` has retired the instruction of entry `e`, whose proper made the writes `changes`: one more step, one
more trace record, and the run status, the program store, the configuration and the draw as before. -/
def Retires (e : Entry) (changes : List Change) (s t : State) : Prop :=
  t.steps = s.steps + 1 ∧
  t.trace = s.trace ++
    [{ step := s.steps, mode := t.mode, runup := t.runup, line := e.line,
       changes := changes ++ (if s.traceAluChanges = true then aluEntries t else []), text := e.text, regs := t.x }] ∧
  t.status = s.status ∧ t.prog = s.prog ∧ t.maxSteps = s.maxSteps ∧ t.traceAluChanges = s.traceAluChanges ∧
  t.draw = s.draw

/-- The error the run takes keeps everything but the status (R175). -/
def TakesError (kind : ErrorKind) (line : Nat) (s t : State) : Prop := t = { s with status := .error kind line }

/-! ### Invariants of reachable states -/

/-- R32, R156, R162: the trace has one record per executed step, numbered from 0, each of an entry of the program store;
its last record shows the present registers, mode and runup; before the first record everything is as reset left it. -/
def State.TraceCoherent (s : State) : Prop :=
  s.trace.length = s.steps ∧
  (∀ (n : Nat) (r : TraceRecord), s.trace[n]? = some r → r.step = n) ∧
  (∀ r ∈ s.trace, { line := r.line, text := r.text : Entry } ∈ s.prog) ∧
  (∀ r, s.trace.getLast? = some r → r.regs = s.x ∧ r.mode = s.mode ∧ r.runup = s.runup) ∧
  (s.trace = [] → s.x = Vector.replicate 15 0 ∧ s.mode = .unset ∧ s.runup = false ∧ s.pc = 0 ∧ s.out = [])

/-- R32, R163: the step count is within the budget. -/
def State.WithinBudget (s : State) : Prop := s.steps ≤ s.maxSteps

/-- R25, R131, R172: while no mode was ever selected, runup is clear and the ingress and egress slots hold 0. -/
def State.UnsetIsClean (s : State) : Prop :=
  s.mode = .unset → s.runup = false ∧ s.ip = 0 ∧ s.i1 = 0 ∧ s.i2 = 0 ∧ s.ep = 0 ∧ s.e = 0

/-- R130, R137: the egress slots and the runup latch are what the evaluation of the present ingress values leaves. -/
def State.Settled (s : State) : Prop := EvaluatedFrom s s.runup s

/-- The invariant of reachable states. -/
def State.Coherent (s : State) : Prop :=
  s.TraceCoherent ∧ s.WithinBudget ∧ s.UnsetIsClean ∧ s.Settled

/-- R151, R158 to R160, R170: a run that is over is over for the cause its status names, at the line the rules give. -/
def State.StatusExplained (s : State) : Prop :=
  match s.status with
  | .running => True
  | .done => (s.prog.length : Int) ≤ s.pc
  | .error .decodeError line =>
    ∃ e c, s.currentEntry = some e ∧ decode e.text = .error c ∧ line = e.line
  | .error .invalidState line =>
    ∃ e i, s.currentEntry = some e ∧ decode e.text = .ok i ∧ i.isLoad ∧ s.mode = .unset ∧ line = e.line
  | .error .stepLimitExceeded line =>
    s.pc < s.prog.length ∧ s.maxSteps ≤ s.steps ∧ line = s.limitLine
  | .error .runtimeFault line => s.pc < 0 ∧ line = s.lastLine

end Machine
end Sys2Proof
end

