-- ==== Sys2Proof/Certificates/Slice0/Obligations.lean ====
section
/-! DEFINITION. The statements for the provers. Each docstring names the rules it formalises; where a clause rests on a
decision of the spec (D<n>) or on the model's own choice (log <n>), it says so. A statement with `EvaluatedFrom` rests, for
negative products, dividends and divisors, on the spec's decision D2. -/

open Sys2Proof Sys2Proof.Machine

/-! ### Encoding, decoding and preprocessing (30_encoding.md) -/

/-- Decode and encode agree on every well-formed instruction, with every operand (R75 to R78, R82, R86). The canonical line
is the model's choice among those R73 and R76 allow (log 9). -/
def Obligations.DecodeEncodeRoundTrip : Prop :=
  ∀ i : Instr, i.wellFormed = true → decode (encode i) = .ok i

/-- The decoder answers only well-formed instructions (R77). -/
def Obligations.DecodedInstrIsWellFormed : Prop :=
  ∀ (text : Text) (i : Instr), decode text = .ok i → i.wellFormed = true

/-- The canonical text of any list of well-formed instructions preprocesses to one entry per instruction, numbered from
source line 1, and each entry decodes to its instruction (R70, R72, R84, R85). -/
def Obligations.AssembledProgramRoundTrip : Prop :=
  ∀ is : List Instr, (∀ i ∈ is, i.wellFormed = true) →
    (preprocess (encodeProgram is)).map (fun e => decode e.text) = is.map .ok ∧
      (preprocess (encodeProgram is)).map (·.line) = List.range' 1 is.length

/-- R71 and R72, in the raw characters of a source line: an entry stands in the executable list exactly when it is a
source line, by number, whose part up to its first `#`, or the whole line without one, is the entry's text between two runs
of whitespace, and that text begins and ends with a character that is not whitespace; entries keep source order, and no
token of an entry holds a `#`. -/
def Obligations.PreprocessKeepsInstructionLines : Prop :=
  ∀ text : Text,
    (∀ (line : Nat) (t : Text), { line := line, text := t : Entry } ∈ preprocess text ↔
      ∃ (n : Nat) (raw kept rest before after : Text),
        line = n + 1 ∧ (splitLines text)[n]? = some raw ∧
        raw = kept ++ rest ∧ '#' ∉ kept ∧ (rest = [] ∨ rest.head? = some '#') ∧
        kept = before ++ t ++ after ∧ (∀ c ∈ before, isBlankChar c = true) ∧ (∀ c ∈ after, isBlankChar c = true) ∧
        (∃ c, t.head? = some c ∧ isBlankChar c = false) ∧ (∃ c, t.getLast? = some c ∧ isBlankChar c = false)) ∧
    (preprocess text).Pairwise (fun a b => a.line < b.line) ∧
    (∀ e ∈ preprocess text, ∀ tok ∈ tokens e.text, '#' ∉ tok)

/-- R70: the lines of a text hold no newline, and joined by newlines they are the text. -/
def Obligations.LinesRejoinToText : Prop :=
  ∀ text : Text, List.intercalate ['\n'] (splitLines text) = text ∧ ∀ l ∈ splitLines text, '\n' ∉ l

/-- R73 (whitespace set: decision D5): the whitespace characters are U+0020, U+0009, U+000D, U+000B and U+000C and no
others; tokens are not empty and hold no whitespace; together they hold the characters of the line that are not whitespace,
in order; and a whitespace character ends a token, whatever stands before and after it. -/
def Obligations.TokensSplitAtWhitespace : Prop :=
  (∀ c : Char, isBlankChar c = true ↔
    c.toNat = 0x20 ∨ c.toNat = 0x09 ∨ c.toNat = 0x0D ∨ c.toNat = 0x0B ∨ c.toNat = 0x0C) ∧
  (∀ text : Text, (∀ t ∈ tokens text, t ≠ [] ∧ ∀ c ∈ t, isBlankChar c = false) ∧
    (tokens text).flatten = text.filter (fun c => !isBlankChar c)) ∧
  (∀ (a b : Text) (c : Char), isBlankChar c = true → tokens (a ++ c :: b) = tokens a ++ tokens b) ∧
  (∀ a : Text, a ≠ [] → (∀ c ∈ a, isBlankChar c = false) → tokens a = [a])

/-- R76 (decision D4): a token is an integer literal exactly when it is an optional sign and then one or more ASCII
decimal digits, and its value is the decimal value, negated for the sign `-`. -/
def Obligations.IntegerLiteralGrammar : Prop :=
  ∀ (t : Text) (v : Int),
    intLiteral? t = some v ↔
      ∃ (sign ds : Text), t = sign ++ ds ∧ (sign = [] ∨ sign = ['+'] ∨ sign = ['-']) ∧ ds ≠ [] ∧
        (∀ c ∈ ds, '0' ≤ c ∧ c ≤ '9') ∧
        v = (if sign = ['-'] then -1 else 1) * (ds.foldl (fun acc c => 10 * acc + (c.toNat - 48)) 0 : Nat)

/-- A line whose operand count is not the opcode's arity (R79) is refused, with the operand count as the cause. That this
cause is answered where an operand is bad too is R80's order of the checks, the spec's own choice (decision D6, log 11). -/
def Obligations.OperandCountMustEqualArity : Prop :=
  ∀ (text op : Text) (args : List Text) (o : Opcode), tokens text = op :: args → o.mnemonic = op →
    args.length ≠
      (match o with
       | .selectAdd | .selectSubtract | .selectMultiply | .selectDivide => 0
       | .load | .loadPrimed | .store | .storePrimed | .print => 1
       | .jumpForward | .jumpBackward | .jumpForwardIfRunup | .jumpBackwardIfRunup => 1
       | .setVariable => 2) →
    decode text = .error .wrongOperandCount

/-- R77: for `N`, `L`, `L'`, `S`, `S'` and `P`, with the right count of integer literals, the line decodes exactly when the
value of its first operand lies in 0..9. -/
def Obligations.VariableIndexMustBeInRange : Prop :=
  ∀ (text op a : Text) (rest : List Text) (k : Int) (vs : List Int), tokens text = op :: a :: rest →
    intLiteral? a = some k → intLiterals? rest = some vs →
    (op = ['N'] ∧ rest.length = 1 ∨
      (op = ['L'] ∨ op = ['L', '\''] ∨ op = ['S'] ∨ op = ['S', '\''] ∨ op = ['P']) ∧ rest = []) →
    ((∃ i, decode text = .ok i) ↔ 0 ≤ k ∧ k ≤ 9)

/-- R74, R75, R80, R82, R83: what the lines of each opcode decode to, by format; and that a line whose first token is none
of the fourteen mnemonics does not decode. -/
def Obligations.LinesDecodeByFormat : Prop :=
  (∀ (text op : Text) (args : List Text), tokens text = op :: args →
    op ∉ [['+'], ['-'], ['*'], ['/'], ['N'], ['L'], ['L', '\''], ['S'], ['S', '\''], ['P'], ['F'], ['B'], ['?', 'F'],
      ['?', 'B']] →
    decode text = .error .unknownOpcode) ∧
  DecodesT0 ['+'] .selectAdd ∧ DecodesT0 ['-'] .selectSubtract ∧ DecodesT0 ['*'] .selectMultiply ∧
  DecodesT0 ['/'] .selectDivide ∧ DecodesTKN ['N'] .setVariable ∧ DecodesTK ['L'] .load ∧
  DecodesTK ['L', '\''] .loadPrimed ∧ DecodesTK ['S'] .store ∧ DecodesTK ['S', '\''] .storePrimed ∧
  DecodesTK ['P'] .print ∧ DecodesTN ['F'] .jumpForward ∧ DecodesTN ['B'] .jumpBackward ∧
  DecodesTN ['?', 'F'] .jumpForwardIfRunup ∧ DecodesTN ['?', 'B'] .jumpBackwardIfRunup

/-- A few lines written out from R75, R76 and R86 decode to the instructions they stand for. -/
def Obligations.WrittenLinesDecode : Prop :=
  decode ['/'] = .ok .selectDivide ∧
  decode ['N', ' ', '9', ' ', '-', '7'] = .ok (.setVariable 9 (-7)) ∧
  decode ['L', '\'', ' ', '3'] = .ok (.loadPrimed 3) ∧
  decode ['S', '\t', '0', '9'] = .ok (.store 9) ∧
  decode ['?', 'B', ' ', '-', '1'] = .ok (.jumpBackwardIfRunup (-1)) ∧
  decode ['L', ' ', '1', '0'] = .error .indexOutOfRange

/-! ### The step -/

/-- R150 to R154: while the run goes on and the loop test holds, the step at a state whose entry at `pc` decodes to `i` is
`exec` of `i` at that state, with nothing around it; and `i` is well-formed. -/
def Obligations.StepRunsDecodedInstruction : Prop :=
  ∀ (s : State) (e : Entry) (i : Instr), s.status = .running → s.steps < s.maxSteps → s.currentEntry = some e →
    decode e.text = .ok i → step s = exec i s ∧ i.wellFormed = true

/-- R81 and R62: a step reads of the program store only its length and the entry at `pc`, so a line that is not fetched is
not decoded: with any other lines elsewhere the step is the same. -/
def Obligations.UnfetchedLinesDoNotMatter : Prop :=
  ∀ (s : State) (prog : List Entry), prog.length = s.prog.length →
    ({ s with prog := prog } : State).currentEntry = s.currentEntry →
    (∀ t, step s = .next t → step { s with prog := prog } = .next { t with prog := prog }) ∧
    (∀ r, step s = .fault r → step { s with prog := prog } = .fault r)

/-- The placement the host uses (log 7): the next step after it runs the decoder's instruction. -/
def Obligations.PlacedWordIsRunNext : Prop :=
  ∀ (s : State) (nbits w : Nat) (i : Instr), decodeTableWord nbits w = some i →
    step (s.withFetchWord nbits w) = exec i (s.withFetchWord nbits w)

/-- R163: a running state always has a next state, and from Done or Error no step is defined (log 6). -/
def Obligations.StepsExactlyWhileRunning : Prop :=
  ∀ s : State, (s.status = .running → ∃ t, step s = .next t) ∧ (s.status ≠ .running → step s = .fault .runIsOver)

/-! ### Mode-select instructions (40_mode_select.md) -/

/-- R100: `+`, with the evaluation of its own step in Add mode; and what its lines decode to. The cause of a refused line
is by R80's order of the checks, the spec's own choice (decision D6, log 11). -/
def Obligations.SelectAddResult : Prop :=
  DecodesT0 ['+'] .selectAdd ∧
  ∀ (s : State) (e : Entry), s.currentEntry = some e →
    ∃ t, exec .selectAdd s = .next t ∧ t.mode = .add ∧ t.e = s.i1 + s.i2 ∧
      (t.runup = true ↔ 99999 < |s.i1 + s.i2|) ∧
      SameOutside [slotE] s t ∧ t.pc = s.pc + 1 ∧ t.out = s.out ∧ Retires e [] s t

/-- R101: `-`, with the evaluation of its own step in Subtract mode; what its lines decode to, and that a token that only
begins with `-` is an unknown opcode. The cause of a refused line is by R80's order of the checks, the spec's own choice
(decision D6, log 11). -/
def Obligations.SelectSubtractResult : Prop :=
  DecodesT0 ['-'] .selectSubtract ∧
  (∀ (text : Text) (c : Char) (cs : Text) (args : List Text), tokens text = ('-' :: c :: cs) :: args →
    decode text = .error .unknownOpcode) ∧
  ∀ (s : State) (e : Entry), s.currentEntry = some e →
    ∃ t, exec .selectSubtract s = .next t ∧ t.mode = .subtract ∧ t.e = s.i1 - s.i2 ∧
      (t.runup = true ↔ s.i1 - s.i2 < 0) ∧
      SameOutside [slotE] s t ∧ t.pc = s.pc + 1 ∧ t.out = s.out ∧ Retires e [] s t

/-- R102 and R134: `*`, with the evaluation of its own step in Multiply mode; runup is left clear. The halves of a negative
product rest on the spec's decision D2. -/
def Obligations.SelectMultiplyResult : Prop :=
  ∀ (s : State) (e : Entry), s.currentEntry = some e →
    ∃ t, exec .selectMultiply s = .next t ∧ t.mode = .multiply ∧ s.i1 * s.i2 = t.ep * 100000 + t.e ∧
      0 ≤ t.e ∧ t.e ≤ 99999 ∧ t.runup = false ∧
      SameOutside [slotE, slotEP] s t ∧ t.pc = s.pc + 1 ∧ t.out = s.out ∧ Retires e [] s t

/-- R103 and R135: `/`, with the evaluation of its own step in Divide mode. By 0 it sets runup and keeps E and EP. The
quotient and remainder of negative operands rest on the spec's decision D2. -/
def Obligations.SelectDivideResult : Prop :=
  ∀ (s : State) (e : Entry), s.currentEntry = some e →
    ∃ t, exec .selectDivide s = .next t ∧ t.mode = .divide ∧
      (s.i2 = 0 → t.e = s.e ∧ t.ep = s.ep ∧ t.runup = true) ∧
      (s.i2 ≠ 0 → s.ip * 100000 + s.i1 = t.ep * s.i2 + t.e ∧ |t.e| < |s.i2| ∧ 0 ≤ t.e * s.i2 ∧
        (t.runup = true ↔ 99999 < t.ep)) ∧
      SameOutside [slotE, slotEP] s t ∧ t.pc = s.pc + 1 ∧ t.out = s.out ∧ Retires e [] s t

/-! ### Data-transfer instructions (41_data_transfer.md) -/

/-- R110: `N k n` writes V[k] in every mode, and the evaluation of its step follows. -/
def Obligations.SetVariableResult : Prop :=
  ∀ (s : State) (e : Entry) (k : Fin 10) (n : Int), s.currentEntry = some e →
    ∃ t, exec (.setVariable k.val n) s = .next t ∧ t.read (varSlot k) = n ∧
      SameOutside [varSlot k, slotE, slotEP] s t ∧ EvaluatedFrom s s.runup t ∧
      t.mode = s.mode ∧ t.pc = s.pc + 1 ∧ t.out = s.out ∧ Retires e [(varSlot k, n)] s t

/-- R111: with a mode set, `L k` writes V[k] to I1 when I1 holds 0, else to I2, never both; the evaluation of its step
follows. -/
def Obligations.LoadResult : Prop :=
  ∀ (s : State) (e : Entry) (k : Fin 10), s.currentEntry = some e → s.mode ≠ .unset →
    ∃ t, exec (.load k.val) s = .next t ∧
      (s.i1 = 0 → t.i1 = s.read (varSlot k) ∧ t.i2 = s.i2 ∧ Retires e [(slotI1, s.read (varSlot k))] s t) ∧
      (s.i1 ≠ 0 → t.i1 = s.i1 ∧ t.i2 = s.read (varSlot k) ∧ Retires e [(slotI2, s.read (varSlot k))] s t) ∧
      SameOutside [slotI1, slotI2, slotE, slotEP] s t ∧ EvaluatedFrom s s.runup t ∧
      t.mode = s.mode ∧ t.pc = s.pc + 1 ∧ t.out = s.out

/-- R112: with a mode set, `L' k` writes V[k] to IP; the evaluation of its step follows. -/
def Obligations.LoadPrimedResult : Prop :=
  ∀ (s : State) (e : Entry) (k : Fin 10), s.currentEntry = some e → s.mode ≠ .unset →
    ∃ t, exec (.loadPrimed k.val) s = .next t ∧ t.ip = s.read (varSlot k) ∧
      SameOutside [slotIP, slotE, slotEP] s t ∧ EvaluatedFrom s s.runup t ∧
      t.mode = s.mode ∧ t.pc = s.pc + 1 ∧ t.out = s.out ∧ Retires e [(slotIP, s.read (varSlot k))] s t

/-- R172: exactly a load in Unset mode takes InvalidState, at its own line; every other instruction, in every mode,
completes. -/
def Obligations.OnlyLoadsNeedMode : Prop :=
  ∀ (i : Instr) (s : State) (e : Entry), i.wellFormed = true → s.currentEntry = some e →
    ((i.isLoad ∧ s.mode = .unset) ↔ exec i s = .next { s with status := .error .invalidState e.line }) ∧
    (¬(i.isLoad ∧ s.mode = .unset) → ∃ t, exec i s = .next t ∧ t.status = s.status ∧ t.steps = s.steps + 1)

/-- R113 and R204: `S k` writes to V[k] the E that the previous step left; the evaluation of its own step follows. -/
def Obligations.StoreResult : Prop :=
  ∀ (s : State) (e : Entry) (k : Fin 10), s.currentEntry = some e →
    ∃ t, exec (.store k.val) s = .next t ∧ t.read (varSlot k) = s.e ∧
      SameOutside [varSlot k, slotE, slotEP] s t ∧ EvaluatedFrom s s.runup t ∧
      t.mode = s.mode ∧ t.pc = s.pc + 1 ∧ t.out = s.out ∧ Retires e [(varSlot k, s.e)] s t

/-- R114 and R204: `S' k` writes to V[k] the EP that the previous step left; the evaluation of its own step follows. -/
def Obligations.StorePrimedResult : Prop :=
  ∀ (s : State) (e : Entry) (k : Fin 10), s.currentEntry = some e →
    ∃ t, exec (.storePrimed k.val) s = .next t ∧ t.read (varSlot k) = s.ep ∧
      SameOutside [varSlot k, slotE, slotEP] s t ∧ EvaluatedFrom s s.runup t ∧
      t.mode = s.mode ∧ t.pc = s.pc + 1 ∧ t.out = s.out ∧ Retires e [(varSlot k, s.ep)] s t

/-- R115: `P k` appends V[k] to the output and writes no register itself; the evaluation of its step follows. -/
def Obligations.PrintResult : Prop :=
  ∀ (s : State) (e : Entry) (k : Fin 10), s.currentEntry = some e →
    ∃ t, exec (.print k.val) s = .next t ∧ t.out = s.out ++ [s.read (varSlot k)] ∧
      SameOutside [slotE, slotEP] s t ∧ EvaluatedFrom s s.runup t ∧
      t.mode = s.mode ∧ t.pc = s.pc + 1 ∧ Retires e [] s t

/-- The model's own choice for terms no line decodes to (log 10): a variable index above 9 takes DecodeError at the line of
the instruction at `pc`. -/
def Obligations.IllFormedIndexTakesDecodeError : Prop :=
  ∀ (i : Instr) (s : State) (e : Entry), i.wellFormed = false → s.currentEntry = some e →
    exec i s = .next { s with status := .error .decodeError e.line }

/-! ### Control-transfer instructions (42_control_transfer.md) -/

/-- R120: `F n` is taken to `pc + n`, whatever the target; the evaluation of its step follows. -/
def Obligations.JumpForwardResult : Prop :=
  ∀ (s : State) (e : Entry) (n : Int), s.currentEntry = some e →
    ∃ t, exec (.jumpForward n) s = .next t ∧ t.pc = s.pc + n ∧
      SameOutside [slotE, slotEP] s t ∧ EvaluatedFrom s s.runup t ∧
      t.mode = s.mode ∧ t.out = s.out ∧ Retires e [] s t

/-- R121: `B n` is taken to `pc - n`, whatever the target; the evaluation of its step follows. -/
def Obligations.JumpBackwardResult : Prop :=
  ∀ (s : State) (e : Entry) (n : Int), s.currentEntry = some e →
    ∃ t, exec (.jumpBackward n) s = .next t ∧ t.pc = s.pc - n ∧
      SameOutside [slotE, slotEP] s t ∧ EvaluatedFrom s s.runup t ∧
      t.mode = s.mode ∧ t.out = s.out ∧ Retires e [] s t

/-- R122 and R205: `?F n` is taken to `pc + n` when the runup the previous step left is set, else falls through; reading
runup does not clear it. -/
def Obligations.JumpForwardIfRunupResult : Prop :=
  ∀ (s : State) (e : Entry) (n : Int), s.currentEntry = some e →
    ∃ t, exec (.jumpForwardIfRunup n) s = .next t ∧
      (s.runup = true → t.pc = s.pc + n) ∧ (s.runup = false → t.pc = s.pc + 1) ∧
      (s.runup = true → t.runup = true) ∧
      SameOutside [slotE, slotEP] s t ∧ EvaluatedFrom s s.runup t ∧
      t.mode = s.mode ∧ t.out = s.out ∧ Retires e [] s t

/-- R123 and R205: `?B n` is taken to `pc - n` when the runup the previous step left is set, else falls through; reading
runup does not clear it. -/
def Obligations.JumpBackwardIfRunupResult : Prop :=
  ∀ (s : State) (e : Entry) (n : Int), s.currentEntry = some e →
    ∃ t, exec (.jumpBackwardIfRunup n) s = .next t ∧
      (s.runup = true → t.pc = s.pc - n) ∧ (s.runup = false → t.pc = s.pc + 1) ∧
      (s.runup = true → t.runup = true) ∧
      SameOutside [slotE, slotEP] s t ∧ EvaluatedFrom s s.runup t ∧
      t.mode = s.mode ∧ t.out = s.out ∧ Retires e [] s t

/-- R155: after any instruction that does not fail, `pc` is the target of a taken jump, and one more otherwise; `F` and `B`
are always taken, `?F` and `?B` only when runup was set at their start. -/
def Obligations.ProgramCounterAdvance : Prop :=
  ∀ (i : Instr) (s : State) (e : Entry), i.wellFormed = true → s.currentEntry = some e →
    ¬(i.isLoad ∧ s.mode = .unset) →
    ∃ t, exec i s = .next t ∧
      t.pc =
        (match i with
         | .jumpForward n => s.pc + n
         | .jumpBackward n => s.pc - n
         | .jumpForwardIfRunup n => if s.runup = true then s.pc + n else s.pc + 1
         | .jumpBackwardIfRunup n => if s.runup = true then s.pc - n else s.pc + 1
         | .selectAdd | .selectSubtract | .selectMultiply | .selectDivide => s.pc + 1
         | .setVariable _ _ | .load _ | .loadPrimed _ | .store _ | .storePrimed _ | .print _ => s.pc + 1)

/-! ### The evaluation (43_arithmetic_effect.md) -/

/-- R132: the Add evaluation: the exact sum in E, runup set when its magnitude is above 99999 and else as it was, EP and
every other slot and field not written, IP not read. -/
def Obligations.EvaluateAdd : Prop :=
  ∀ s : State, s.mode = .add →
    (evaluate s).e = s.i1 + s.i2 ∧
    ((evaluate s).runup = true ↔ s.runup = true ∨ 99999 < |s.i1 + s.i2|) ∧
    SameOutside [slotE] s (evaluate s) ∧
    evaluate s = { s with x := (evaluate s).x, runup := (evaluate s).runup } ∧
    ∀ v, (evaluate (s.write slotIP v)).e = (evaluate s).e ∧ (evaluate (s.write slotIP v)).runup = (evaluate s).runup

/-- R133: the Subtract evaluation: the exact difference in E, runup set when it is negative and else as it was, EP and
every other slot and field not written, IP not read. -/
def Obligations.EvaluateSubtract : Prop :=
  ∀ s : State, s.mode = .subtract →
    (evaluate s).e = s.i1 - s.i2 ∧
    ((evaluate s).runup = true ↔ s.runup = true ∨ s.i1 - s.i2 < 0) ∧
    SameOutside [slotE] s (evaluate s) ∧
    evaluate s = { s with x := (evaluate s).x, runup := (evaluate s).runup } ∧
    ∀ v, (evaluate (s.write slotIP v)).e = (evaluate s).e ∧ (evaluate (s.write slotIP v)).runup = (evaluate s).runup

/-- R134 (decision D2 for negative products): the Multiply evaluation splits the exact product at 100000 into EP and a
low-order E in 0..99999, neither sets nor clears runup, and does not read IP. -/
def Obligations.EvaluateMultiply : Prop :=
  ∀ s : State, s.mode = .multiply →
    s.i1 * s.i2 = (evaluate s).ep * 100000 + (evaluate s).e ∧ 0 ≤ (evaluate s).e ∧ (evaluate s).e ≤ 99999 ∧
    (evaluate s).runup = s.runup ∧
    SameOutside [slotE, slotEP] s (evaluate s) ∧
    evaluate s = { s with x := (evaluate s).x, runup := (evaluate s).runup } ∧
    ∀ v, (evaluate (s.write slotIP v)).e = (evaluate s).e ∧ (evaluate (s.write slotIP v)).ep = (evaluate s).ep

/-- R135 (decision D2 for negative operands): the Divide evaluation of IP·100000 + I1 by I2: by 0 it writes no slot and
sets runup; otherwise EP and E are the quotient and the remainder, the remainder 0 or of the divisor's sign and smaller
than it, and runup is set when the quotient is above 99999. -/
def Obligations.EvaluateDivide : Prop :=
  ∀ s : State, s.mode = .divide →
    (s.i2 = 0 → evaluate s = { s with runup := true }) ∧
    (s.i2 ≠ 0 →
      s.ip * 100000 + s.i1 = (evaluate s).ep * s.i2 + (evaluate s).e ∧
      |(evaluate s).e| < |s.i2| ∧ 0 ≤ (evaluate s).e * s.i2 ∧
      ((evaluate s).runup = true ↔ s.runup = true ∨ 99999 < (evaluate s).ep)) ∧
    SameOutside [slotE, slotEP] s (evaluate s) ∧
    evaluate s = { s with x := (evaluate s).x, runup := (evaluate s).runup }

/-- R137: a second evaluation changes nothing, and an instruction other than a load or a mode-select leaves E, EP and runup
of a state an evaluation has settled as they are. -/
def Obligations.EvaluationRepeats : Prop :=
  (∀ s : State, evaluate (evaluate s) = evaluate s) ∧
  ∀ (i : Instr) (s t : State), evaluate s = s → exec i s = .next t → ¬i.isLoad → ¬i.isModeSelect →
    t.e = s.e ∧ t.ep = s.ep ∧ t.runup = s.runup

/-- R136: no evaluation clears runup; an instruction that leaves runup clear where it was set is a mode-select; and a
mode-select leaves the same state whatever runup was before it. -/
def Obligations.RunupClearedOnlyByModeSelect : Prop :=
  (∀ s : State, s.runup = true → (evaluate s).runup = true) ∧
  (∀ (i : Instr) (s t : State), exec i s = .next t → s.runup = true → t.runup = false → i.isModeSelect) ∧
  (∀ (i : Instr) (s : State) (e : Entry) (b : Bool), i.isModeSelect → s.currentEntry = some e →
    exec i { s with runup := b } = exec i s)

/-- R29: besides the trace, only `?F` and `?B` read runup, at the start of their own execution: any other instruction, run
with another runup, leaves the same registers, mode, pc, output, step count and status, and a trace that differs in its
runup fields only; a conditional jump's pc is decided by the runup it starts with. The last clause, that a record shows the
runup the step leaves and not the one it started with, is the spec's decision D12 (R35, log 11). -/
def Obligations.OnlyConditionalJumpsReadRunup : Prop :=
  (∀ (i : Instr) (s t t' : State) (b : Bool), ¬i.isConditionalJump →
    exec i s = .next t → exec i { s with runup := b } = .next t' →
    t'.x = t.x ∧ t'.mode = t.mode ∧ t'.pc = t.pc ∧ t'.out = t.out ∧ t'.steps = t.steps ∧ t'.status = t.status ∧
    t'.trace.map (fun r => { r with runup := false }) = t.trace.map (fun r => { r with runup := false })) ∧
  (∀ (s : State) (e : Entry) (n : Int), s.currentEntry = some e →
    ∃ t t', exec (.jumpForwardIfRunup n) s = .next t ∧ exec (.jumpBackwardIfRunup n) s = .next t' ∧
      t.pc = (if s.runup = true then s.pc + n else s.pc + 1) ∧
      t'.pc = (if s.runup = true then s.pc - n else s.pc + 1)) ∧
  (∀ (i : Instr) (s t : State) (e : Entry), s.currentEntry = some e → exec i s = .next t → t.steps = s.steps + 1 →
    ∃ r, t.trace = s.trace ++ [r] ∧ r.runup = t.runup)

/-- R9 (decision D11): TRACE_ALU_CHANGES has no effect but on the change lists of trace records. -/
def Obligations.AluTracingAffectsOnlyChangeLists : Prop :=
  ∀ (s t t' : State) (b : Bool), step s = .next t → step { s with traceAluChanges := b } = .next t' →
    t'.x = t.x ∧ t'.mode = t.mode ∧ t'.runup = t.runup ∧ t'.pc = t.pc ∧ t'.out = t.out ∧ t'.steps = t.steps ∧
    t'.status = t.status ∧
    t'.trace.map (fun r => { r with changes := [] }) = t.trace.map (fun r => { r with changes := [] })

/-! ### Whole-machine rules -/

/-- R22: which instruction, in which state, can change each slot. -/
def Obligations.RegisterWriters : Prop :=
  ∀ (i : Instr) (s t : State), exec i s = .next t →
    (t.ip ≠ s.ip → ∃ k, i = .loadPrimed k) ∧
    (t.i1 ≠ s.i1 → (∃ k, i = .load k) ∧ s.i1 = 0) ∧
    (t.i2 ≠ s.i2 → (∃ k, i = .load k) ∧ s.i1 ≠ 0) ∧
    (t.ep ≠ s.ep → t.mode = .multiply ∨ t.mode = .divide ∧ t.i2 ≠ 0) ∧
    (t.e ≠ s.e → t.mode = .add ∨ t.mode = .subtract ∨ t.mode = .multiply ∨ t.mode = .divide ∧ t.i2 ≠ 0) ∧
    (∀ k : Fin 10, t.read (varSlot k) ≠ s.read (varSlot k) →
      (∃ n, i = .setVariable k.val n) ∨ i = .store k.val ∨ i = .storePrimed k.val)

/-- R25: only a mode-select changes the mode, to its own; so a run that left Unset never returns to it. -/
def Obligations.ModeLatchPersists : Prop :=
  (∀ (i : Instr) (s t : State), exec i s = .next t → t.mode ≠ s.mode →
    i = .selectAdd ∧ t.mode = .add ∨ i = .selectSubtract ∧ t.mode = .subtract ∨
    i = .selectMultiply ∧ t.mode = .multiply ∨ i = .selectDivide ∧ t.mode = .divide) ∧
  (∀ s t : State, step s = .next t → s.mode ≠ .unset → t.mode ≠ .unset)

/-- R34: the output only grows, by one value and only when `P` prints it. -/
def Obligations.OutputGrowsOnlyByPrint : Prop :=
  ∀ s t : State, step s = .next t →
    t.out = s.out ∨
    ∃ (e : Entry) (k : Fin 10), s.currentEntry = some e ∧ decode e.text = .ok (.print k.val) ∧
      t.out = s.out ++ [s.read (varSlot k)]

/-- R62 and R37: no step writes the program store, the configuration or the draw. -/
def Obligations.ProgramAndConfigurationNeverChange : Prop :=
  ∀ s t : State, step s = .next t →
    t.prog = s.prog ∧ t.maxSteps = s.maxSteps ∧ t.traceAluChanges = s.traceAluChanges ∧ t.draw = s.draw

/-- R156, R160 and R182: a step either ends the run and counts and records nothing, or goes on with one more step counted
and one record appended, of the fetched entry and the state after the step. What the record's fields hold is the spec's
decision D12 (log 11); that the end test is a step, one of those that end the run, is the model's choice (log 6). -/
def Obligations.EveryStepRecordsOrEnds : Prop :=
  ∀ s t : State, step s = .next t →
    (t.status ≠ .running ∧ t.steps = s.steps ∧ t.trace = s.trace) ∨
    (t.status = .running ∧ t.steps = s.steps + 1 ∧
      ∃ (e : Entry) (changes : List Change), s.currentEntry = some e ∧
        t.trace = s.trace ++
          [{ step := s.steps, mode := t.mode, runup := t.runup, line := e.line, changes := changes, text := e.text,
             regs := t.x }])

/-! ### Errors and the end of a run (44_sequencer.md, 60_exceptions.md) -/

/-- R175: a step that raises an error changes nothing but the status. The same of the end test, which completes the run
normally (R158) or ends it at the step limit (R159); that the end test is a step of its own is the model's choice (log 6). -/
def Obligations.EndingStepChangesOnlyStatus : Prop :=
  ∀ s t : State, step s = .next t → t.status ≠ .running → t = { s with status := t.status }

/-- R151, R158 to R160, R170 to R174 (decisions D7 to D9): every step leaves a status whose cause holds and whose line is
the one the rules give. That the end test is a step of its own is the model's choice (log 6). -/
def Obligations.StatusAlwaysExplained : Prop :=
  ∀ s t : State, step s = .next t → t.StatusExplained

/-- R158 as R151 reads it: with `pc` at or past the program's end the run completes normally, whatever the step count, with
the success result; and an empty program completes at once, with an empty trace, no output and the reset registers. That
`pc` past the end completes is the spec's decision D7, that it does so at a used budget its decision D9 (log 11), and that
the end test is a step of its own is the model's choice (log 6). -/
def Obligations.NormalCompletion : Prop :=
  (∀ s : State, s.status = .running → (s.prog.length : Int) ≤ s.pc →
    step s = .next { s with status := .done } ∧
    ({ s with status := .done } : State).result =
      some (.success { trace := s.trace, out := s.out, registers := s.x })) ∧
  (∀ (text : Text) (maxSteps : Nat) (alu : Bool) (draw : Nat), preprocess text = [] →
    runProgram text maxSteps alu draw =
      some (.success { trace := [], out := [], registers := Vector.replicate 15 0 }))

/-- R159 and R173 (decisions D8 and D9): with the budget used and the program not at its end, the run fails with
StepLimitExceeded, before any fetch, at the line of the last executed instruction, or of the first one with a budget of 0.
That the end test is a step of its own is the model's choice (log 6). -/
def Obligations.StepLimitExceededAtBudget : Prop :=
  ∀ s : State, s.status = .running → s.pc < s.prog.length → s.maxSteps ≤ s.steps →
    ∃ line, step s = .next { s with status := .error .stepLimitExceeded line } ∧
      (∀ (n : Nat) (r : TraceRecord), s.maxSteps = n + 1 → s.trace[n]? = some r → line = r.line) ∧
      (∀ e : Entry, s.maxSteps = 0 → s.currentEntry = some e → line = e.line)

/-- R152 and R174 (decision D7): a fetch with `pc` below 0 takes RuntimeFault at the line of the last executed
instruction. -/
def Obligations.NegativePcTakesRuntimeFault : Prop :=
  ∀ s : State, s.status = .running → s.pc < 0 → s.steps < s.maxSteps →
    ∃ line, step s = .next { s with status := .error .runtimeFault line } ∧
      ∀ (n : Nat) (r : TraceRecord), s.steps = n + 1 → s.trace[n]? = some r → line = r.line

/-- R153, R171 and R176: a fetched line that does not decode takes DecodeError at its own source line, in every mode. -/
def Obligations.MalformedLineTakesDecodeError : Prop :=
  ∀ (s : State) (e : Entry) (c : DecodeCause), s.status = .running → s.steps < s.maxSteps → s.currentEntry = some e →
    decode e.text = .error c → step s = .next { s with status := .error .decodeError e.line }

/-- R162: the result of a run that completed, in a coherent state: the triple, a trace as long as the step count, the final
registers those of its last record, which also shows the final mode and runup, and the reset registers without a record.
That a record's mode and runup are those after its step is the spec's decision D12 (R35, log 11). -/
def Obligations.SuccessResultIsTriple : Prop :=
  ∀ s : State, s.Coherent → s.status = .done →
    s.result = some (.success { trace := s.trace, out := s.out, registers := s.x }) ∧ s.trace.length = s.steps ∧
    (∀ r, s.trace.getLast? = some r → s.x = r.regs ∧ s.mode = r.mode ∧ s.runup = r.runup) ∧
    (s.trace = [] → s.x = Vector.replicate 15 0)

/-- R161: a run that failed answers the error record only: its kind, its line and a message; no trace, output or register of
the failed run shows in it. That equal status, program and draw give equal results, the message among them, is the model's
choice of what the free message is drawn from (log 5): R170 leaves it unconstrained, and which text it is, nothing here
says. -/
def Obligations.ErrorDiscardsPartialResult : Prop :=
  ∀ (s : State) (kind : ErrorKind) (line : Nat), s.status = .error kind line →
    (∃ message, s.result = some (.failure { kind := kind, line := line, message := message })) ∧
    ∀ s' : State, s'.status = s.status → s'.prog = s.prog → s'.draw = s.draw → s'.result = s.result

/-- R40 and R200: the reset operation gives every piece of state its reset value, whatever it held, and the start of a run
is that reset with the preprocessed program text. -/
def Obligations.ResetValues : Prop :=
  (∀ (s : State) (i : Slot), s.resetRun.read i = 0) ∧
  (∀ s : State, s.resetRun.mode = .unset ∧ s.resetRun.runup = false ∧ s.resetRun.pc = 0 ∧ s.resetRun.steps = 0 ∧
    s.resetRun.out = [] ∧ s.resetRun.trace = [] ∧ s.resetRun.status = .running) ∧
  (∀ (s : State) (text : Text) (maxSteps : Nat) (alu : Bool) (draw : Nat),
    State.start text maxSteps alu draw =
      ({ s with prog := preprocess text, maxSteps := maxSteps, traceAluChanges := alu, draw := draw } : State).resetRun)

/-! ### Invariants and the end of every run -/

/-- R25, R32, R35, R131, R137, R156, R162, R163: every step from a coherent state leaves a coherent state. -/
def Obligations.StepKeepsCoherent : Prop :=
  ∀ s t : State, s.Coherent → step s = .next t → t.Coherent

/-- R40, R150: every run starts coherent, and so is the reset state. -/
def Obligations.StartIsCoherent : Prop :=
  State.reset.Coherent ∧
  ∀ (text : Text) (maxSteps : Nat) (alu : Bool) (draw : Nat), (State.start text maxSteps alu draw).Coherent

/-- R163: from every running state the run is over within the steps left in its budget and one end test; no step counts
past the budget. The one step more, for the end test, is the model's choice (log 6). -/
def Obligations.RunEndsWithinBudget : Prop :=
  ∀ s : State, s.status = .running →
    ∃ (k : Nat) (t : State), k ≤ s.maxSteps - s.steps + 1 ∧ core.run k s = .next t ∧ t.status ≠ .running ∧
      t.steps ≤ max s.steps s.maxSteps

/-- R150, R187: a whole run answers exactly one of a result and an error, for every program text, budget and
configuration, and its success has at most MAX_STEPS trace records. -/
def Obligations.WholeRunAnswers : Prop :=
  ∀ (text : Text) (maxSteps : Nat) (alu : Bool) (draw : Nat),
    ∃ r, runProgram text maxSteps alu draw = some r ∧
      ∀ ok, r = .success ok → ok.trace.length ≤ maxSteps
end

