-- ==== Sys2Proof/Laws/State.lean ====
section
/-! SUPPORT. One lemma per field per update of State, true by rfl, so that no later proof unfolds a record update; then the
same for the register views, and for the updates that are made of others. -/

namespace Sys2Proof.Machine

/-! ### Fields after an update -/

@[simp] theorem State.write_x (s : State) (i : Slot) (v : Int) :
    (s.write i v).x = s.x.set i v := rfl

@[simp] theorem State.write_mode (s : State) (i : Slot) (v : Int) :
    (s.write i v).mode = s.mode := rfl

@[simp] theorem State.write_runup (s : State) (i : Slot) (v : Int) :
    (s.write i v).runup = s.runup := rfl

@[simp] theorem State.write_pc (s : State) (i : Slot) (v : Int) :
    (s.write i v).pc = s.pc := rfl

@[simp] theorem State.write_steps (s : State) (i : Slot) (v : Int) :
    (s.write i v).steps = s.steps := rfl

@[simp] theorem State.write_out (s : State) (i : Slot) (v : Int) :
    (s.write i v).out = s.out := rfl

@[simp] theorem State.write_trace (s : State) (i : Slot) (v : Int) :
    (s.write i v).trace = s.trace := rfl

@[simp] theorem State.write_status (s : State) (i : Slot) (v : Int) :
    (s.write i v).status = s.status := rfl

@[simp] theorem State.write_prog (s : State) (i : Slot) (v : Int) :
    (s.write i v).prog = s.prog := rfl

@[simp] theorem State.write_maxSteps (s : State) (i : Slot) (v : Int) :
    (s.write i v).maxSteps = s.maxSteps := rfl

@[simp] theorem State.write_traceAluChanges (s : State) (i : Slot) (v : Int) :
    (s.write i v).traceAluChanges = s.traceAluChanges := rfl

@[simp] theorem State.write_draw (s : State) (i : Slot) (v : Int) :
    (s.write i v).draw = s.draw := rfl

@[simp] theorem State.emit_x (s : State) (v : Int) :
    (s.emit v).x = s.x := rfl

@[simp] theorem State.emit_mode (s : State) (v : Int) :
    (s.emit v).mode = s.mode := rfl

@[simp] theorem State.emit_runup (s : State) (v : Int) :
    (s.emit v).runup = s.runup := rfl

@[simp] theorem State.emit_pc (s : State) (v : Int) :
    (s.emit v).pc = s.pc := rfl

@[simp] theorem State.emit_steps (s : State) (v : Int) :
    (s.emit v).steps = s.steps := rfl

@[simp] theorem State.emit_out (s : State) (v : Int) :
    (s.emit v).out = s.out ++ [v] := rfl

@[simp] theorem State.emit_trace (s : State) (v : Int) :
    (s.emit v).trace = s.trace := rfl

@[simp] theorem State.emit_status (s : State) (v : Int) :
    (s.emit v).status = s.status := rfl

@[simp] theorem State.emit_prog (s : State) (v : Int) :
    (s.emit v).prog = s.prog := rfl

@[simp] theorem State.emit_maxSteps (s : State) (v : Int) :
    (s.emit v).maxSteps = s.maxSteps := rfl

@[simp] theorem State.emit_traceAluChanges (s : State) (v : Int) :
    (s.emit v).traceAluChanges = s.traceAluChanges := rfl

@[simp] theorem State.emit_draw (s : State) (v : Int) :
    (s.emit v).draw = s.draw := rfl

@[simp] theorem State.advance_x (s : State) :
    (s.advance).x = s.x := rfl

@[simp] theorem State.advance_mode (s : State) :
    (s.advance).mode = s.mode := rfl

@[simp] theorem State.advance_runup (s : State) :
    (s.advance).runup = s.runup := rfl

@[simp] theorem State.advance_pc (s : State) :
    (s.advance).pc = s.pc + 1 := rfl

@[simp] theorem State.advance_steps (s : State) :
    (s.advance).steps = s.steps := rfl

@[simp] theorem State.advance_out (s : State) :
    (s.advance).out = s.out := rfl

@[simp] theorem State.advance_trace (s : State) :
    (s.advance).trace = s.trace := rfl

@[simp] theorem State.advance_status (s : State) :
    (s.advance).status = s.status := rfl

@[simp] theorem State.advance_prog (s : State) :
    (s.advance).prog = s.prog := rfl

@[simp] theorem State.advance_maxSteps (s : State) :
    (s.advance).maxSteps = s.maxSteps := rfl

@[simp] theorem State.advance_traceAluChanges (s : State) :
    (s.advance).traceAluChanges = s.traceAluChanges := rfl

@[simp] theorem State.advance_draw (s : State) :
    (s.advance).draw = s.draw := rfl

@[simp] theorem State.raise_x (s : State) (k : ErrorKind) (l : Nat) :
    (s.raise k l).x = s.x := rfl

@[simp] theorem State.raise_mode (s : State) (k : ErrorKind) (l : Nat) :
    (s.raise k l).mode = s.mode := rfl

@[simp] theorem State.raise_runup (s : State) (k : ErrorKind) (l : Nat) :
    (s.raise k l).runup = s.runup := rfl

@[simp] theorem State.raise_pc (s : State) (k : ErrorKind) (l : Nat) :
    (s.raise k l).pc = s.pc := rfl

@[simp] theorem State.raise_steps (s : State) (k : ErrorKind) (l : Nat) :
    (s.raise k l).steps = s.steps := rfl

@[simp] theorem State.raise_out (s : State) (k : ErrorKind) (l : Nat) :
    (s.raise k l).out = s.out := rfl

@[simp] theorem State.raise_trace (s : State) (k : ErrorKind) (l : Nat) :
    (s.raise k l).trace = s.trace := rfl

@[simp] theorem State.raise_status (s : State) (k : ErrorKind) (l : Nat) :
    (s.raise k l).status = .error k l := rfl

@[simp] theorem State.raise_prog (s : State) (k : ErrorKind) (l : Nat) :
    (s.raise k l).prog = s.prog := rfl

@[simp] theorem State.raise_maxSteps (s : State) (k : ErrorKind) (l : Nat) :
    (s.raise k l).maxSteps = s.maxSteps := rfl

@[simp] theorem State.raise_traceAluChanges (s : State) (k : ErrorKind) (l : Nat) :
    (s.raise k l).traceAluChanges = s.traceAluChanges := rfl

@[simp] theorem State.raise_draw (s : State) (k : ErrorKind) (l : Nat) :
    (s.raise k l).draw = s.draw := rfl

@[simp] theorem retire_x (s : State) (e : Entry) (cs : List Change) :
    (retire e cs s).x = s.x := rfl

@[simp] theorem retire_mode (s : State) (e : Entry) (cs : List Change) :
    (retire e cs s).mode = s.mode := rfl

@[simp] theorem retire_runup (s : State) (e : Entry) (cs : List Change) :
    (retire e cs s).runup = s.runup := rfl

@[simp] theorem retire_pc (s : State) (e : Entry) (cs : List Change) :
    (retire e cs s).pc = s.pc := rfl

@[simp] theorem retire_steps (s : State) (e : Entry) (cs : List Change) :
    (retire e cs s).steps = s.steps + 1 := rfl

@[simp] theorem retire_out (s : State) (e : Entry) (cs : List Change) :
    (retire e cs s).out = s.out := rfl

@[simp] theorem retire_trace (s : State) (e : Entry) (cs : List Change) :
    (retire e cs s).trace = s.trace ++
      [{ step := s.steps, mode := s.mode, runup := s.runup, line := e.line, changes := cs, text := e.text, regs := s.x }] := rfl

@[simp] theorem retire_status (s : State) (e : Entry) (cs : List Change) :
    (retire e cs s).status = s.status := rfl

@[simp] theorem retire_prog (s : State) (e : Entry) (cs : List Change) :
    (retire e cs s).prog = s.prog := rfl

@[simp] theorem retire_maxSteps (s : State) (e : Entry) (cs : List Change) :
    (retire e cs s).maxSteps = s.maxSteps := rfl

@[simp] theorem retire_traceAluChanges (s : State) (e : Entry) (cs : List Change) :
    (retire e cs s).traceAluChanges = s.traceAluChanges := rfl

@[simp] theorem retire_draw (s : State) (e : Entry) (cs : List Change) :
    (retire e cs s).draw = s.draw := rfl

/-! ### Register reads after an update -/

/-- A slot reads as the value written to it, and every other slot as before. -/
theorem State.read_write (s : State) (i j : Slot) (v : Int) :
    (s.write i v).read j = if i = j then v else s.read j := by
  simp [State.read, State.write, Vector.getElem_set, Fin.ext_iff]

@[simp] theorem State.read_write_self (s : State) (i : Slot) (v : Int) : (s.write i v).read i = v := by
  simp [State.read_write]

theorem State.read_write_of_ne (s : State) {i j : Slot} (v : Int) (h : i ≠ j) :
    (s.write i v).read j = s.read j := by
  simp [State.read_write, h]

@[simp] theorem State.emit_read (s : State) (v : Int) (j : Slot) :
    (s.emit v).read j = s.read j := rfl

@[simp] theorem State.emit_view_ip (s : State) (v : Int) :
    (s.emit v).ip = s.ip := rfl

@[simp] theorem State.emit_view_i1 (s : State) (v : Int) :
    (s.emit v).i1 = s.i1 := rfl

@[simp] theorem State.emit_view_i2 (s : State) (v : Int) :
    (s.emit v).i2 = s.i2 := rfl

@[simp] theorem State.emit_view_ep (s : State) (v : Int) :
    (s.emit v).ep = s.ep := rfl

@[simp] theorem State.emit_view_e (s : State) (v : Int) :
    (s.emit v).e = s.e := rfl

@[simp] theorem State.advance_read (s : State) (j : Slot) :
    (s.advance).read j = s.read j := rfl

@[simp] theorem State.advance_view_ip (s : State) :
    (s.advance).ip = s.ip := rfl

@[simp] theorem State.advance_view_i1 (s : State) :
    (s.advance).i1 = s.i1 := rfl

@[simp] theorem State.advance_view_i2 (s : State) :
    (s.advance).i2 = s.i2 := rfl

@[simp] theorem State.advance_view_ep (s : State) :
    (s.advance).ep = s.ep := rfl

@[simp] theorem State.advance_view_e (s : State) :
    (s.advance).e = s.e := rfl

@[simp] theorem State.raise_read (s : State) (k : ErrorKind) (l : Nat) (j : Slot) :
    (s.raise k l).read j = s.read j := rfl

@[simp] theorem State.raise_view_ip (s : State) (k : ErrorKind) (l : Nat) :
    (s.raise k l).ip = s.ip := rfl

@[simp] theorem State.raise_view_i1 (s : State) (k : ErrorKind) (l : Nat) :
    (s.raise k l).i1 = s.i1 := rfl

@[simp] theorem State.raise_view_i2 (s : State) (k : ErrorKind) (l : Nat) :
    (s.raise k l).i2 = s.i2 := rfl

@[simp] theorem State.raise_view_ep (s : State) (k : ErrorKind) (l : Nat) :
    (s.raise k l).ep = s.ep := rfl

@[simp] theorem State.raise_view_e (s : State) (k : ErrorKind) (l : Nat) :
    (s.raise k l).e = s.e := rfl

@[simp] theorem retire_read (s : State) (en : Entry) (cs : List Change) (j : Slot) :
    (retire en cs s).read j = s.read j := rfl

@[simp] theorem retire_view_ip (s : State) (en : Entry) (cs : List Change) :
    (retire en cs s).ip = s.ip := rfl

@[simp] theorem retire_view_i1 (s : State) (en : Entry) (cs : List Change) :
    (retire en cs s).i1 = s.i1 := rfl

@[simp] theorem retire_view_i2 (s : State) (en : Entry) (cs : List Change) :
    (retire en cs s).i2 = s.i2 := rfl

@[simp] theorem retire_view_ep (s : State) (en : Entry) (cs : List Change) :
    (retire en cs s).ep = s.ep := rfl

@[simp] theorem retire_view_e (s : State) (en : Entry) (cs : List Change) :
    (retire en cs s).e = s.e := rfl

/-- Two states with the same register file read the same. -/
theorem State.read_congr {s t : State} (h : t.x = s.x) (i : Slot) : t.read i = s.read i := by
  simp [State.read, h]

/-! ### Writing several slots -/

@[simp] theorem State.writeAll_mode (s : State) (cs : List Change) : (s.writeAll cs).mode = s.mode := by
  induction cs generalizing s with
  | nil => rfl
  | cons c cs ih => simp [State.writeAll, ih]

@[simp] theorem State.writeAll_runup (s : State) (cs : List Change) : (s.writeAll cs).runup = s.runup := by
  induction cs generalizing s with
  | nil => rfl
  | cons c cs ih => simp [State.writeAll, ih]

@[simp] theorem State.writeAll_pc (s : State) (cs : List Change) : (s.writeAll cs).pc = s.pc := by
  induction cs generalizing s with
  | nil => rfl
  | cons c cs ih => simp [State.writeAll, ih]

@[simp] theorem State.writeAll_steps (s : State) (cs : List Change) : (s.writeAll cs).steps = s.steps := by
  induction cs generalizing s with
  | nil => rfl
  | cons c cs ih => simp [State.writeAll, ih]

@[simp] theorem State.writeAll_out (s : State) (cs : List Change) : (s.writeAll cs).out = s.out := by
  induction cs generalizing s with
  | nil => rfl
  | cons c cs ih => simp [State.writeAll, ih]

@[simp] theorem State.writeAll_trace (s : State) (cs : List Change) : (s.writeAll cs).trace = s.trace := by
  induction cs generalizing s with
  | nil => rfl
  | cons c cs ih => simp [State.writeAll, ih]

@[simp] theorem State.writeAll_status (s : State) (cs : List Change) : (s.writeAll cs).status = s.status := by
  induction cs generalizing s with
  | nil => rfl
  | cons c cs ih => simp [State.writeAll, ih]

@[simp] theorem State.writeAll_prog (s : State) (cs : List Change) : (s.writeAll cs).prog = s.prog := by
  induction cs generalizing s with
  | nil => rfl
  | cons c cs ih => simp [State.writeAll, ih]

@[simp] theorem State.writeAll_maxSteps (s : State) (cs : List Change) : (s.writeAll cs).maxSteps = s.maxSteps := by
  induction cs generalizing s with
  | nil => rfl
  | cons c cs ih => simp [State.writeAll, ih]

@[simp] theorem State.writeAll_traceAluChanges (s : State) (cs : List Change) : (s.writeAll cs).traceAluChanges = s.traceAluChanges := by
  induction cs generalizing s with
  | nil => rfl
  | cons c cs ih => simp [State.writeAll, ih]

@[simp] theorem State.writeAll_draw (s : State) (cs : List Change) : (s.writeAll cs).draw = s.draw := by
  induction cs generalizing s with
  | nil => rfl
  | cons c cs ih => simp [State.writeAll, ih]

/-- A slot that no entry of the list names reads as before. -/
theorem State.read_writeAll_of_notMem (s : State) (cs : List Change) (j : Slot) (h : ∀ c ∈ cs, c.1 ≠ j) :
    (s.writeAll cs).read j = s.read j := by
  induction cs generalizing s with
  | nil => rfl
  | cons c cs ih =>
    rw [State.writeAll, ih _ fun d hd => h d (by simp [hd]), State.read_write_of_ne _ _ (h c (by simp))]

/-! ### The evaluation -/

@[simp] theorem evaluate_mode (s : State) : (evaluate s).mode = s.mode := by simp [evaluate]

@[simp] theorem evaluate_pc (s : State) : (evaluate s).pc = s.pc := by simp [evaluate]

@[simp] theorem evaluate_steps (s : State) : (evaluate s).steps = s.steps := by simp [evaluate]

@[simp] theorem evaluate_out (s : State) : (evaluate s).out = s.out := by simp [evaluate]

@[simp] theorem evaluate_trace (s : State) : (evaluate s).trace = s.trace := by simp [evaluate]

@[simp] theorem evaluate_status (s : State) : (evaluate s).status = s.status := by simp [evaluate]

@[simp] theorem evaluate_prog (s : State) : (evaluate s).prog = s.prog := by simp [evaluate]

@[simp] theorem evaluate_maxSteps (s : State) : (evaluate s).maxSteps = s.maxSteps := by simp [evaluate]

@[simp] theorem evaluate_traceAluChanges (s : State) : (evaluate s).traceAluChanges = s.traceAluChanges := by simp [evaluate]

@[simp] theorem evaluate_draw (s : State) : (evaluate s).draw = s.draw := by simp [evaluate]

@[simp] theorem evaluate_runup (s : State) : (evaluate s).runup = (s.runup || evalTrips s) := rfl

theorem evaluate_x (s : State) : (evaluate s).x = (s.writeAll (evalWrites s)).x := rfl

end Sys2Proof.Machine
end

