-- ==== Sys2Proof/Laws/Ops.lean ====
section
/-! SUPPORT. For each shared operation, one lemma that says once everything it can do. Later proofs cite these instead of
unfolding the operations. -/

namespace Sys2Proof.Machine

/-! ### Slots -/

@[simp] theorem slotIP_ne_slotI1 : slotIP ≠ slotI1 := by decide
@[simp] theorem slotIP_ne_slotI2 : slotIP ≠ slotI2 := by decide
@[simp] theorem slotIP_ne_slotEP : slotIP ≠ slotEP := by decide
@[simp] theorem slotIP_ne_slotE : slotIP ≠ slotE := by decide
@[simp] theorem slotI1_ne_slotIP : slotI1 ≠ slotIP := by decide
@[simp] theorem slotI1_ne_slotI2 : slotI1 ≠ slotI2 := by decide
@[simp] theorem slotI1_ne_slotEP : slotI1 ≠ slotEP := by decide
@[simp] theorem slotI1_ne_slotE : slotI1 ≠ slotE := by decide
@[simp] theorem slotI2_ne_slotIP : slotI2 ≠ slotIP := by decide
@[simp] theorem slotI2_ne_slotI1 : slotI2 ≠ slotI1 := by decide
@[simp] theorem slotI2_ne_slotEP : slotI2 ≠ slotEP := by decide
@[simp] theorem slotI2_ne_slotE : slotI2 ≠ slotE := by decide
@[simp] theorem slotEP_ne_slotIP : slotEP ≠ slotIP := by decide
@[simp] theorem slotEP_ne_slotI1 : slotEP ≠ slotI1 := by decide
@[simp] theorem slotEP_ne_slotI2 : slotEP ≠ slotI2 := by decide
@[simp] theorem slotEP_ne_slotE : slotEP ≠ slotE := by decide
@[simp] theorem slotE_ne_slotIP : slotE ≠ slotIP := by decide
@[simp] theorem slotE_ne_slotI1 : slotE ≠ slotI1 := by decide
@[simp] theorem slotE_ne_slotI2 : slotE ≠ slotI2 := by decide
@[simp] theorem slotE_ne_slotEP : slotE ≠ slotEP := by decide

@[simp] theorem varSlot_ne_slotIP (k : Fin 10) : varSlot k ≠ slotIP := by decide +revert
@[simp] theorem slotIP_ne_varSlot (k : Fin 10) : slotIP ≠ varSlot k := by decide +revert
@[simp] theorem varSlot_ne_slotI1 (k : Fin 10) : varSlot k ≠ slotI1 := by decide +revert
@[simp] theorem slotI1_ne_varSlot (k : Fin 10) : slotI1 ≠ varSlot k := by decide +revert
@[simp] theorem varSlot_ne_slotI2 (k : Fin 10) : varSlot k ≠ slotI2 := by decide +revert
@[simp] theorem slotI2_ne_varSlot (k : Fin 10) : slotI2 ≠ varSlot k := by decide +revert
@[simp] theorem varSlot_ne_slotEP (k : Fin 10) : varSlot k ≠ slotEP := by decide +revert
@[simp] theorem slotEP_ne_varSlot (k : Fin 10) : slotEP ≠ varSlot k := by decide +revert
@[simp] theorem varSlot_ne_slotE (k : Fin 10) : varSlot k ≠ slotE := by decide +revert
@[simp] theorem slotE_ne_varSlot (k : Fin 10) : slotE ≠ varSlot k := by decide +revert

/-! ### Operands -/

/-- A variable index in range names its slot. -/
@[simp] theorem variableSlot?_val (k : Fin 10) : variableSlot? k.val = some (varSlot k) := by
  have h : k.val ≤ 9 := by omega
  simp [variableSlot?, varSlot, h]

/-- A variable index names a slot exactly when it is at most 9, and then that of its `Fin`. -/
theorem variableSlot?_cases (k : Nat) :
    (∃ j : Fin 10, k = j.val ∧ variableSlot? k = some (varSlot j)) ∨ (9 < k ∧ variableSlot? k = none) := by
  by_cases h : k ≤ 9
  · exact .inl ⟨⟨k, by omega⟩, rfl, variableSlot?_val ⟨k, by omega⟩⟩
  · exact .inr ⟨by omega, by simp [variableSlot?, h]⟩

/-- The slots of the variables are none of the ingress and egress slots, and differ from one another. -/
theorem varSlot_inj {j k : Fin 10} : varSlot j = varSlot k ↔ j = k := by
  simp [varSlot, Fin.ext_iff]

theorem varSlot_ge (k : Fin 10) : 5 ≤ (varSlot k).val := by simp [varSlot]

/-- Every slot is one of the five named ones or a variable's. -/
theorem slot_cases (i : Slot) :
    i = slotIP ∨ i = slotI1 ∨ i = slotI2 ∨ i = slotEP ∨ i = slotE ∨ ∃ k : Fin 10, i = varSlot k := by
  by_cases h : 5 ≤ i.val
  · exact .inr (.inr (.inr (.inr (.inr ⟨⟨i.val - 5, by omega⟩, by ext; simp [varSlot]; omega⟩))))
  · simp only [Fin.ext_iff, slotIP, slotI1, slotI2, slotEP, slotE]
    have : i.val < 5 := by omega
    interval_cases i.val <;> simp

/-- The slot a load writes is I1 or I2, by the zero test of I1. -/
theorem loadTarget_cases (s : State) :
    (s.i1 = 0 ∧ s.loadTarget = slotI1) ∨ (s.i1 ≠ 0 ∧ s.loadTarget = slotI2) := by
  by_cases h : s.i1 = 0
  · exact .inl ⟨h, by simp [State.loadTarget, h]⟩
  · exact .inr ⟨h, by simp [State.loadTarget, h]⟩

/-- A load never writes an egress slot. -/
@[simp] theorem loadTarget_ne_slotE (s : State) : s.loadTarget ≠ slotE := by
  rcases loadTarget_cases s with ⟨_, h⟩ | ⟨_, h⟩ <;> simp [h]

@[simp] theorem loadTarget_ne_slotEP (s : State) : s.loadTarget ≠ slotEP := by
  rcases loadTarget_cases s with ⟨_, h⟩ | ⟨_, h⟩ <;> simp [h]

/-! ### The evaluation -/

/-- The slots the evaluation writes are E and EP. -/
theorem evalWrites_slots (s : State) : ∀ c ∈ evalWrites s, c.1 = slotE ∨ c.1 = slotEP := by
  intro c hc
  unfold evalWrites at hc
  split at hc <;> (try split at hc) <;> simp only [List.mem_cons, List.not_mem_nil, or_false] at hc <;>
    rcases hc with rfl | rfl <;> simp

/-- The evaluation keeps every slot but E and EP. -/
theorem evaluate_read_of_ne (s : State) {i : Slot} (he : i ≠ slotE) (hp : i ≠ slotEP) :
    (evaluate s).read i = s.read i := by
  have h := State.read_writeAll_of_notMem s (evalWrites s) i fun c hc => by
    rcases evalWrites_slots s c hc with h | h <;> rw [h]
    · exact he.symm
    · exact hp.symm
  exact h

@[simp] theorem evaluate_ip (s : State) : (evaluate s).ip = s.ip := evaluate_read_of_ne s (by decide) (by decide)
@[simp] theorem evaluate_i1 (s : State) : (evaluate s).i1 = s.i1 := evaluate_read_of_ne s (by decide) (by decide)
@[simp] theorem evaluate_i2 (s : State) : (evaluate s).i2 = s.i2 := evaluate_read_of_ne s (by decide) (by decide)

@[simp] theorem evaluate_variable (s : State) (k : Fin 10) : (evaluate s).read (varSlot k) = s.read (varSlot k) :=
  evaluate_read_of_ne s (by simp) (by simp)

/-- What the evaluation leaves in E, by mode. -/
theorem evaluate_e (s : State) :
    (evaluate s).e =
      match s.mode with
      | .unset => s.e
      | .add => s.i1 + s.i2
      | .subtract => s.i1 - s.i2
      | .multiply => fmod (s.i1 * s.i2) radix
      | .divide => if s.i2 = 0 then s.e else fmod s.dividend s.i2 := by
  change (s.writeAll (evalWrites s)).read slotE = _
  cases h : s.mode <;> simp [evalWrites, h, State.writeAll, State.read_write, State.e]
  split <;> simp [State.writeAll]

/-- What the evaluation leaves in EP, by mode. -/
theorem evaluate_ep (s : State) :
    (evaluate s).ep =
      match s.mode with
      | .unset => s.ep
      | .add => s.ep
      | .subtract => s.ep
      | .multiply => fdiv (s.i1 * s.i2) radix
      | .divide => if s.i2 = 0 then s.ep else fdiv s.dividend s.i2 := by
  change (s.writeAll (evalWrites s)).read slotEP = _
  cases h : s.mode <;> simp [evalWrites, h, State.writeAll, State.read_write, State.ep]
  split <;> simp [State.writeAll, State.read_write]

/-- When the evaluation sets runup, by mode. -/
theorem evalTrips_iff (s : State) :
    evalTrips s = true ↔
      match s.mode with
      | .unset => False
      | .add => 99999 < |s.i1 + s.i2|
      | .subtract => s.i1 - s.i2 < 0
      | .multiply => False
      | .divide => s.i2 = 0 ∨ 99999 < fdiv s.dividend s.i2 := by
  cases h : s.mode <;> simp only [evalTrips, h, decide_eq_true_eq, Bool.or_eq_true, Bool.false_eq_true] <;> rfl

/-- The laws of floor division (R11): the exact division law, and a remainder smaller than the divisor, 0 or of its sign. -/
theorem fdiv_fmod_laws (a b : Int) (hb : b ≠ 0) :
    a = fdiv a b * b + fmod a b ∧ |fmod a b| < |b| ∧ 0 ≤ fmod a b * b := by
  refine ⟨(Int.fdiv_mul_add_fmod a b).symm, ?_⟩
  unfold fmod
  rcases lt_or_gt_of_ne hb with hn | hp
  · have h0 := Int.fmod_nonneg_of_pos (-a) (b := -b) (by omega)
    have h1 := Int.fmod_lt_of_pos (-a) (b := -b) (by omega)
    rw [Int.neg_fmod_neg] at h0 h1
    exact ⟨by rw [abs_of_nonpos (by omega), abs_of_neg hn]; omega, mul_nonneg_of_nonpos_of_nonpos (by omega) hn.le⟩
  · have h0 := Int.fmod_nonneg_of_pos a hp
    exact ⟨by rw [abs_of_nonneg h0, abs_of_pos hp]; exact Int.fmod_lt_of_pos a hp, mul_nonneg h0 hp.le⟩

/-! ### The sequencer -/

/-- Every executed instruction has a next state, and one of these three. -/
theorem execute_cases (s : State) (proper : Except ErrorKind Effect) :
    (∃ e f, s.currentEntry = some e ∧ proper = .ok f ∧ execute s proper = .next (finishStep e f)) ∨
    (∃ e kind, s.currentEntry = some e ∧ proper = .error kind ∧ execute s proper = .next (s.raise kind e.line)) ∨
    (s.currentEntry = none ∧ execute s proper = .next (s.raise .runtimeFault s.lastLine)) := by
  cases he : s.currentEntry with
  | none => exact .inr (.inr ⟨rfl, by simp [execute, he]⟩)
  | some e =>
    cases proper with
    | ok f => exact .inl ⟨e, f, rfl, rfl, by simp [execute, he]⟩
    | error kind => exact .inr (.inl ⟨e, kind, rfl, rfl, by simp [execute, he]⟩)

/-- A completed instruction proper, at the entry it was fetched from. -/
theorem execute_ok {s : State} {e : Entry} (f : Effect) (he : s.currentEntry = some e) :
    execute s (.ok f) = .next (finishStep e f) := by simp [execute, he]

/-- An instruction proper that fails, at the entry it was fetched from. -/
theorem execute_error {s : State} {e : Entry} (kind : ErrorKind) (he : s.currentEntry = some e) :
    execute s (.error kind) = .next (s.raise kind e.line) := by simp [execute, he]

/-- A variable's instruction proper runs on the slot of its index. -/
@[simp] theorem withVariable_val (k : Fin 10) (f : Slot → Except ErrorKind Effect) :
    withVariable k.val f = f (varSlot k) := by simp [withVariable]

/-- A variable's instruction proper runs on the slot of an index in range, and else is a DecodeError. -/
theorem withVariable_cases (k : Nat) (f : Slot → Except ErrorKind Effect) :
    (∃ j : Fin 10, k = j.val ∧ withVariable k f = f (varSlot j)) ∨
      (9 < k ∧ withVariable k f = .error .decodeError) := by
  rcases variableSlot?_cases k with ⟨j, hj, h⟩ | ⟨hk, h⟩
  · exact .inl ⟨j, hj, by simp [withVariable, h]⟩
  · exact .inr ⟨hk, by simp [withVariable, h]⟩

/-- A load's instruction proper runs with a mode set, and else is InvalidState. -/
theorem requireMode_cases (s : State) (f : Except ErrorKind Effect) :
    (s.mode ≠ .unset ∧ requireMode s f = f) ∨ (s.mode = .unset ∧ requireMode s f = .error .invalidState) := by
  by_cases h : s.mode = .unset
  · exact .inr ⟨h, by simp [requireMode, h]⟩
  · exact .inl ⟨h, by simp [requireMode, h]⟩

/-- What `finishStep` does to each field of the state the instruction proper left. -/
theorem finishStep_fields (e : Entry) (f : Effect) :
    (finishStep e f).x = (evaluate f.state).x ∧
    (finishStep e f).mode = f.state.mode ∧
    (finishStep e f).runup = (f.state.runup || evalTrips f.state) ∧
    (finishStep e f).pc = (if f.taken = true then f.state.pc else f.state.pc + 1) ∧
    (finishStep e f).steps = f.state.steps + 1 ∧
    (finishStep e f).out = f.state.out ∧
    (finishStep e f).trace = f.state.trace ++
      [{ step := f.state.steps, mode := f.state.mode, runup := f.state.runup || evalTrips f.state, line := e.line,
         changes := stepChanges f, text := e.text, regs := (evaluate f.state).x }] ∧
    (finishStep e f).status = f.state.status ∧
    (finishStep e f).prog = f.state.prog ∧
    (finishStep e f).maxSteps = f.state.maxSteps ∧
    (finishStep e f).traceAluChanges = f.state.traceAluChanges ∧
    (finishStep e f).draw = f.state.draw := by
  cases h : f.taken <;> simp [finishStep, h]

/-- A fetched and decoded instruction comes from the entry at `pc`; otherwise the entry is missing or malformed. -/
theorem fetchDecode_cases (s : State) :
    (∃ e i, s.currentEntry = some e ∧ decode e.text = .ok i ∧ fetchDecode s = .ok i) ∨
    (∃ e c, s.currentEntry = some e ∧ decode e.text = .error c ∧ fetchDecode s = .error (.decodeError, e.line)) ∨
    (s.currentEntry = none ∧ fetchDecode s = .error (.runtimeFault, s.lastLine)) := by
  cases he : s.currentEntry with
  | none => exact .inr (.inr ⟨rfl, by simp [fetchDecode, he]⟩)
  | some e =>
    cases hd : decode e.text with
    | ok i => exact .inl ⟨e, i, rfl, hd, by simp [fetchDecode, he, hd]⟩
    | error c => exact .inr (.inl ⟨e, c, rfl, hd, by simp [fetchDecode, he, hd]⟩)

/-- There is an entry at `pc` exactly when `pc` lies in the program store. -/
theorem currentEntry_isSome_iff (s : State) :
    (∃ e, s.currentEntry = some e) ↔ 0 ≤ s.pc ∧ s.pc < s.prog.length := by
  unfold State.currentEntry
  split
  · simp; omega
  · constructor
    · rintro ⟨e, he⟩
      have := (List.getElem?_eq_some_iff.mp he).1
      omega
    · rintro ⟨h0, h1⟩
      exact ⟨s.prog[s.pc.toNat]'(by omega), List.getElem?_eq_getElem _⟩

/-! ### The step -/

/-- The host's run of any machine, one step further. -/
theorem host_run_succ (M : Host.Core) (k : Nat) {s t : M.State} (h : M.step s = .next t) :
    M.run (k + 1) s = M.run k t := by
  rw [Host.Core.run.eq_def]
  simp only [h]

/-- The host's run of no step. -/
theorem core_run_zero (s : State) : core.run 0 s = .next s := rfl

/-- The host's run of this machine, one step further. -/
theorem core_run_succ {s t : State} (k : Nat) (h : step s = .next t) : core.run (k + 1) s = core.run k t :=
  host_run_succ core k h

/-- The model's own run, one step further. -/
theorem runFor_succ {s t : State} (k : Nat) (h : step s = .next t) : s.runFor (k + 1) = t.runFor k := by
  rw [State.runFor, h]

/-- Everything a step with a next state can be: the end test, a failed fetch or decode, or an executed instruction. -/
theorem step_cases {s t : State} (h : step s = .next t) :
    s.status = .running ∧
    ((s.loopTest = false ∧ t = s.endRun) ∨
     (s.loopTest = true ∧ s.pc < 0 ∧ t = s.raise .runtimeFault s.lastLine) ∨
     (∃ e c, s.loopTest = true ∧ s.currentEntry = some e ∧ decode e.text = .error c ∧
        t = s.raise .decodeError e.line) ∨
     (∃ e i, s.loopTest = true ∧ s.currentEntry = some e ∧ decode e.text = .ok i ∧ exec i s = .next t)) := by
  unfold step at h
  split at h
  case h_1 hs =>
    refine ⟨hs, ?_⟩
    cases hl : s.loopTest with
    | false => simp only [hl] at h; cases h; exact .inl ⟨rfl, rfl⟩
    | true =>
      rw [hl] at h
      rcases fetchDecode_cases s with ⟨e, i, he, hd, hf⟩ | ⟨e, c, he, hd, hf⟩ | ⟨he, hf⟩
      · exact .inr (.inr (.inr ⟨e, i, rfl, he, hd, by simpa [hf] using h⟩))
      · refine .inr (.inr (.inl ⟨e, c, rfl, he, hd, ?_⟩))
        simp [hf] at h
        exact h.symm
      · refine .inr (.inl ⟨rfl, ?_, ?_⟩)
        · have hn := mt (currentEntry_isSome_iff s).mpr (by simp [he])
          simp [State.loopTest] at hl
          omega
        · simp [hf] at h
          exact h.symm
  case h_2 => cases h
  case h_3 => cases h

end Sys2Proof.Machine
end

