-- ==== Sys2Proof/Laws/Exec.lean ====
section
/-! SUPPORT. Every arm of `exec` is `execute` of an instruction proper: said once, with what a proper can be, so that a
claim over all instructions is a claim over `execute` and the propers. -/

namespace Sys2Proof.Machine

/-- The instruction proper of each instruction (R154), as the meanings use it. -/
def properOf (i : Instr) (s : State) : Except ErrorKind Effect :=
  match i with
  | .selectAdd => .ok (selectMode .add s)
  | .selectSubtract => .ok (selectMode .subtract s)
  | .selectMultiply => .ok (selectMode .multiply s)
  | .selectDivide => .ok (selectMode .divide s)
  | .setVariable k n => withVariable k fun v => .ok (writeSlot s v n)
  | .load k => withVariable k fun v => requireMode s (.ok (writeSlot s s.loadTarget (s.read v)))
  | .loadPrimed k => withVariable k fun v => requireMode s (.ok (writeSlot s slotIP (s.read v)))
  | .store k => withVariable k fun v => .ok (writeSlot s v s.e)
  | .storePrimed k => withVariable k fun v => .ok (writeSlot s v s.ep)
  | .print k => withVariable k fun v => .ok (noWrite (s.emit (s.read v)))
  | .jumpForward n => .ok (jumpTo s (s.pc + n))
  | .jumpBackward n => .ok (jumpTo s (s.pc - n))
  | .jumpForwardIfRunup n => .ok (if s.runup then jumpTo s (s.pc + n) else noWrite s)
  | .jumpBackwardIfRunup n => .ok (if s.runup then jumpTo s (s.pc - n) else noWrite s)

/-- `exec` executes the instruction's proper. -/
theorem exec_eq_execute (i : Instr) (s : State) : exec i s = execute s (properOf i s) := by cases i <;> rfl

/-- Everything an instruction with a next state can have done. -/
theorem exec_cases {i : Instr} {s t : State} (h : exec i s = .next t) :
    (∃ e f, s.currentEntry = some e ∧ properOf i s = .ok f ∧ t = finishStep e f) ∨
    (∃ e kind, s.currentEntry = some e ∧ properOf i s = .error kind ∧ t = s.raise kind e.line) ∨
    (s.currentEntry = none ∧ t = s.raise .runtimeFault s.lastLine) := by
  rw [exec_eq_execute] at h
  rcases execute_cases s (properOf i s) with ⟨e, f, he, hp, hx⟩ | ⟨e, kind, he, hp, hx⟩ | ⟨he, hx⟩ <;>
    rw [hx] at h <;> cases h
  · exact .inl ⟨e, f, he, hp, rfl⟩
  · exact .inr (.inl ⟨e, kind, he, hp, rfl⟩)
  · exact .inr (.inr ⟨he, rfl⟩)

/-- A proper that fails is a load in Unset mode, or an instruction term with an index no line decodes to. -/
theorem properOf_error {i : Instr} {s : State} {kind : ErrorKind} (h : properOf i s = .error kind) :
    (kind = .invalidState ∧ i.isLoad ∧ s.mode = .unset) ∨ (kind = .decodeError ∧ i.wellFormed = false) := by
  cases i <;> simp only [properOf, reduceCtorEq] at h
  case load k | loadPrimed k | setVariable k n | store k | storePrimed k | print k =>
    rcases withVariable_cases k _ with ⟨j, hj, hw⟩ | ⟨hk, hw⟩ <;> rw [hw] at h
    · first
        | cases h
        | rcases requireMode_cases s _ with ⟨hm, hr⟩ | ⟨hm, hr⟩ <;> rw [hr] at h <;> cases h
          exact .inl ⟨rfl, ⟨k, by simp⟩, hm⟩
    · cases h
      exact .inr ⟨rfl, by simp [Instr.wellFormed, indexInRange]; omega⟩

/-- What a proper leaves alone: the step count, the trace, the status, the program store, the configuration and the draw,
and the slots E and EP. -/
theorem properOf_keeps {i : Instr} {s : State} {f : Effect} (h : properOf i s = .ok f) :
    f.state.steps = s.steps ∧ f.state.trace = s.trace ∧ f.state.status = s.status ∧ f.state.prog = s.prog ∧
    f.state.maxSteps = s.maxSteps ∧ f.state.traceAluChanges = s.traceAluChanges ∧ f.state.draw = s.draw ∧
    f.state.e = s.e ∧ f.state.ep = s.ep := by
  have hw : ∀ j v, j ≠ slotE → j ≠ slotEP → (writeSlot s j v).state.e = s.e ∧ (writeSlot s j v).state.ep = s.ep :=
    fun j v h1 h2 => ⟨State.read_write_of_ne s v h1, State.read_write_of_ne s v h2⟩
  cases i <;> simp only [properOf] at h
  case load k | loadPrimed k | setVariable k n | store k | storePrimed k | print k =>
    rcases withVariable_cases k _ with ⟨j, hj, hx⟩ | ⟨hk, hx⟩ <;> rw [hx] at h
    · first
        | cases h; exact ⟨rfl, rfl, rfl, rfl, rfl, rfl, rfl, hw _ _ (by simp) (by simp)⟩
        | cases h; exact ⟨rfl, rfl, rfl, rfl, rfl, rfl, rfl, rfl, rfl⟩
        | rcases requireMode_cases s _ with ⟨hm, hr⟩ | ⟨hm, hr⟩ <;> rw [hr] at h <;> cases h
          exact ⟨rfl, rfl, rfl, rfl, rfl, rfl, rfl, hw _ _ (by simp) (by simp)⟩
    · cases h
  case jumpForwardIfRunup n | jumpBackwardIfRunup n =>
    cases h
    split <;> exact ⟨rfl, rfl, rfl, rfl, rfl, rfl, rfl, rfl, rfl⟩
  all_goals
    cases h
    exact ⟨rfl, rfl, rfl, rfl, rfl, rfl, rfl, rfl, rfl⟩

end Sys2Proof.Machine
end

