-- ==== Sys2Proof/Laws/PerInstr.lean ====
section
/-! SUPPORT. Statements about every instruction as syntax, one lemma per constructor. -/

namespace Sys2Proof.Laws.TokenShape

/-- The tokens of an instruction's line are as many as its opcode's format says, the first is its opcode's mnemonic, and
the decoder reads that mnemonic back as the opcode (R74, R75, R86). -/
def Statement (i : Instr) : Prop :=
  i.operands.length = i.opcode.format.arity ∧
  (encodeTokens i).length = 1 + i.opcode.format.arity ∧
  (encodeTokens i).head? = some i.opcode.mnemonic ∧
  opcodeOf? i.opcode.mnemonic = some i.opcode

theorem selectAdd : Statement .selectAdd := ⟨rfl, rfl, rfl, rfl⟩
theorem selectSubtract : Statement .selectSubtract := ⟨rfl, rfl, rfl, rfl⟩
theorem selectMultiply : Statement .selectMultiply := ⟨rfl, rfl, rfl, rfl⟩
theorem selectDivide : Statement .selectDivide := ⟨rfl, rfl, rfl, rfl⟩
theorem setVariable (k : Nat) (n : Int) : Statement (.setVariable k n) := ⟨rfl, rfl, rfl, rfl⟩
theorem load (k : Nat) : Statement (.load k) := ⟨rfl, rfl, rfl, rfl⟩
theorem loadPrimed (k : Nat) : Statement (.loadPrimed k) := ⟨rfl, rfl, rfl, rfl⟩
theorem store (k : Nat) : Statement (.store k) := ⟨rfl, rfl, rfl, rfl⟩
theorem storePrimed (k : Nat) : Statement (.storePrimed k) := ⟨rfl, rfl, rfl, rfl⟩
theorem print (k : Nat) : Statement (.print k) := ⟨rfl, rfl, rfl, rfl⟩
theorem jumpForward (n : Int) : Statement (.jumpForward n) := ⟨rfl, rfl, rfl, rfl⟩
theorem jumpBackward (n : Int) : Statement (.jumpBackward n) := ⟨rfl, rfl, rfl, rfl⟩
theorem jumpForwardIfRunup (n : Int) : Statement (.jumpForwardIfRunup n) := ⟨rfl, rfl, rfl, rfl⟩
theorem jumpBackwardIfRunup (n : Int) : Statement (.jumpBackwardIfRunup n) := ⟨rfl, rfl, rfl, rfl⟩

end Sys2Proof.Laws.TokenShape
end

