-- ==== Sys2Proof/Laws/Program.lean ====
section
/-! SUPPORT. The canonical form of the program store (R72): what preprocessing builds is well-formed, so a started run's
store is, and no step writes it. Before that, what comment stripping, trimming and numbering each do, said once in the
characters of a line (R71, R72). -/

namespace Sys2Proof

/-- Trimming is the library's dropping at both ends. -/
theorem trim_eq (l : Text) : trim l = (l.dropWhile isBlankChar).rdropWhile isBlankChar := rfl

/-- A trimmed text does not start with whitespace. -/
theorem trimStart_trim (l : Text) : trimStart (trim l) = trim l := by
  unfold trimStart
  rw [List.dropWhile_eq_self_iff]
  intro hl
  have hp : trim l <+: l.dropWhile isBlankChar := List.rdropWhile_prefix _ _
  have h0 : 0 < (l.dropWhile isBlankChar).length := hl.trans_le hp.length_le
  rw [hp.getElem hl]
  exact List.dropWhile_get_zero_not isBlankChar l h0

/-- Trimming twice is trimming once. -/
theorem trim_trim (l : Text) : trim (trim l) = trim l := by
  have h := trimStart_trim l
  unfold trimStart at h
  rw [trim_eq (trim l), h, trim_eq l, List.rdropWhile_idempotent]

/-- R71, in raw characters: a part of a line is what comment stripping keeps of it exactly when it holds no `#` and what
follows it is nothing or starts with `#`. -/
theorem stripComment_eq_iff (raw kept : Text) :
    stripComment raw = kept ↔
      ∃ rest, raw = kept ++ rest ∧ '#' ∉ kept ∧ (rest = [] ∨ rest.head? = some '#') := by
  constructor
  · rintro rfl
    refine ⟨raw.dropWhile (· != '#'), (List.takeWhile_append_dropWhile ..).symm, fun h => ?_, ?_⟩
    · simpa using List.mem_takeWhile_imp h
    · cases hr : raw.dropWhile (· != '#') with
      | nil => exact .inl rfl
      | cons c cs => simpa [hr] using List.head?_dropWhile_not (· != '#') raw
  · rintro ⟨rest, rfl, hk, hr⟩
    have hall : ∀ c ∈ kept, (c != '#') = true := fun c hc => by simpa using fun (h : c = '#') => hk (h ▸ hc)
    unfold stripComment
    rw [List.takeWhile_append_of_pos hall]
    rcases hr with rfl | hr
    · simp
    · obtain ⟨cs, rfl⟩ := List.head?_eq_some_iff.mp hr
      simp

/-- R72, in raw characters: a text is a line trimmed and not blank exactly when the line is that text between two runs of
whitespace and the text begins and ends with a character that is not whitespace. -/
theorem trim_eq_iff (l t : Text) :
    trim l = t ∧ t ≠ [] ↔
      ∃ before after, l = before ++ t ++ after ∧ (∀ c ∈ before, isBlankChar c = true) ∧
        (∀ c ∈ after, isBlankChar c = true) ∧
        (∃ c, t.head? = some c ∧ isBlankChar c = false) ∧ (∃ c, t.getLast? = some c ∧ isBlankChar c = false) := by
  constructor
  · rintro ⟨rfl, hne⟩
    set m := l.dropWhile isBlankChar with hm
    have ht : trim l = m.rdropWhile isBlankChar := trim_eq l
    refine ⟨l.takeWhile isBlankChar, m.rtakeWhile isBlankChar, ?_, fun c hc => List.mem_takeWhile_imp hc,
      fun c hc => List.mem_rtakeWhile_imp hc, ?_, ?_⟩
    · rw [ht, List.append_assoc, List.rdropWhile_append_rtakeWhile, hm, List.takeWhile_append_dropWhile]
    · have h := trimStart_trim l
      cases hc : trim l with
      | nil => exact absurd hc hne
      | cons c cs =>
        refine ⟨c, rfl, ?_⟩
        rw [hc] at h
        by_contra hb
        simp only [Bool.not_eq_false] at hb
        have := congrArg List.length h
        simp [trimStart, hb] at this
        have h2 := (List.dropWhile_suffix isBlankChar (l := cs)).length_le
        omega
    · refine ⟨(trim l).getLast hne, List.getLast?_eq_some_getLast hne, ?_⟩
      have := List.rdropWhile_last_not isBlankChar m (ht ▸ hne)
      simpa [ht] using this
  · rintro ⟨before, after, rfl, hb, ha, ⟨c, hc, hcb⟩, ⟨d, hd, hdb⟩⟩
    have hdrop : ∀ (pre u : Text), (∀ c ∈ pre, isBlankChar c = true) → (∃ c, u.head? = some c ∧ isBlankChar c = false) →
        trimStart (pre ++ u) = u := by
      rintro pre u hpre ⟨c, hc, hcb⟩
      obtain ⟨cs, rfl⟩ := List.head?_eq_some_iff.mp hc
      rw [trimStart, List.dropWhile_append_of_pos hpre, List.dropWhile_cons_of_neg (by simp [hcb])]
    refine ⟨?_, by rintro rfl; simp at hc⟩
    rw [trim, List.append_assoc, hdrop before _ hb ⟨c, by simp [hc], hcb⟩, List.reverse_append,
      hdrop _ _ (by simpa using ha) ⟨d, by simpa using hd, hdb⟩, List.reverse_reverse]
/-- A part of a text without `#` is not cut by comment stripping. -/
theorem stripComment_of_sublist {l m : Text} (h : l.Sublist (stripComment m)) : stripComment l = l := by
  refine List.takeWhile_eq_self_iff.mpr fun c hc => ?_
  exact List.mem_takeWhile_imp (p := (· != '#')) (h.subset hc)

theorem trim_sublist (l : Text) : (trim l).Sublist l :=
  (List.rdropWhile_prefix _ _).sublist.trans (List.dropWhile_suffix _).sublist

/-- A stripped line is left as it is by stripping it again. -/
theorem stripLine_stripLine (raw : Text) : stripLine (stripLine raw) = stripLine raw := by
  unfold stripLine
  rw [stripComment_of_sublist (trim_sublist (stripComment raw)), trim_trim]

/-- The entries numbered from `n` are well-formed when `n` is at least 1, and their lines are at least `n`. -/
theorem numberLines_entries (n : Nat) (ls : List Text) (hn : 1 ≤ n) :
    ∀ e ∈ numberLines n ls, entryWf e = true ∧ n ≤ e.line := by
  induction ls generalizing n with
  | nil => simp [numberLines]
  | cons raw rest ih =>
    intro e he
    unfold numberLines at he
    split at he
    case isTrue => exact ⟨(ih (n + 1) (by omega) e he).1, by have := (ih (n + 1) (by omega) e he).2; omega⟩
    case isFalse hraw =>
      rcases List.mem_cons.mp he with rfl | he
      · exact ⟨by simp [entryWf, hraw, stripLine_stripLine, hn], le_rfl⟩
      · exact ⟨(ih (n + 1) (by omega) e he).1, by have := (ih (n + 1) (by omega) e he).2; omega⟩

/-- The entries numbered from `n` have strictly rising line numbers. -/
theorem numberLines_rising (n : Nat) (ls : List Text) (hn : 1 ≤ n) :
    (numberLines n ls).Pairwise fun a b => a.line < b.line := by
  induction ls generalizing n with
  | nil => simp [numberLines]
  | cons raw rest ih =>
    unfold numberLines
    split
    · exact ih (n + 1) (by omega)
    · refine List.pairwise_cons.mpr ⟨fun e he => ?_, ih (n + 1) (by omega)⟩
      have := (numberLines_entries (n + 1) rest (by omega) e he).2
      simp only
      omega

/-- R72: the entries numbered from `n` are the lines that are not blank once stripped, by their place. -/
theorem mem_numberLines_iff (ls : List Text) (n line : Nat) (t : Text) :
    { line := line, text := t : Entry } ∈ numberLines n ls ↔
      ∃ k raw, line = k + n ∧ ls[k]? = some raw ∧ stripLine raw = t ∧ t ≠ [] := by
  induction ls generalizing n with
  | nil => simp [numberLines]
  | cons raw rest ih =>
    unfold numberLines
    constructor
    · intro h
      split at h
      · obtain ⟨k, r, h1, h2, h3⟩ := (ih _).mp h
        exact ⟨k + 1, r, by omega, by simpa using h2, h3⟩
      · rcases List.mem_cons.mp h with h | h
        · simp only [Entry.mk.injEq] at h
          obtain ⟨rfl, rfl⟩ := h
          exact ⟨0, raw, by omega, rfl, rfl, ‹_›⟩
        · obtain ⟨k, r, h1, h2, h3⟩ := (ih _).mp h
          exact ⟨k + 1, r, by omega, by simpa using h2, h3⟩
    · rintro ⟨k, r, h1, h2, h3, h4⟩
      cases k with
      | zero =>
        simp only [List.getElem?_cons_zero, Option.some.injEq] at h2
        subst h2; subst h3
        rw [if_neg h4]
        simp [h1]
      | succ k =>
        have : { line := line, text := t : Entry } ∈ numberLines (n + 1) rest :=
          (ih _).mpr ⟨k, r, by omega, by simpa using h2, h3, h4⟩
        split
        · exact this
        · exact List.mem_cons_of_mem _ this

/-- The program store preprocessing builds has its canonical form. -/
theorem preprocess_wf (text : Text) : programWf (preprocess text) = true := by
  simp only [programWf, Bool.and_eq_true, List.all_eq_true, decide_eq_true_eq]
  exact ⟨fun e he => (numberLines_entries 1 _ le_rfl e he).1, numberLines_rising 1 _ le_rfl⟩

namespace Machine

/-- The reset state's program store has its canonical form. -/
theorem reset_programWf : programWf State.reset.prog = true := by decide

/-- A started run's program store has its canonical form. -/
theorem start_programWf (text : Text) (m : Nat) (alu : Bool) (d : Nat) :
    programWf (State.start text m alu d).prog = true := preprocess_wf text

/-- `placeLine` puts the text at the index, whatever stood there. -/
theorem placeLine_get (prog : List Entry) (n : Nat) (text : Text) :
    ∃ line, (placeLine prog n text)[n]? = some { line := line, text := text } := by
  unfold placeLine
  cases h : prog[n]? with
  | some e =>
    have hn := (List.getElem?_eq_some_iff.mp h).1
    exact ⟨e.line, by simp [hn]⟩
  | none =>
    have hn := List.getElem?_eq_none_iff.mp h
    exact ⟨n + 1, by rw [List.getElem?_append_right hn, List.getElem?_replicate]; simp; omega⟩

end Machine
end Sys2Proof
end

