-- ==== Sys2Proof/Tests/Slice0.lean ====
section
/-! SUPPORT. Small tests, each with the vector of 95_test_vectors.md or the rule its expected value comes from, and for
every statement with hypotheses a witness that meets them. -/

namespace Sys2Proof.Tests

open Machine

/-- The next state of an outcome. -/
def nextOf (o : Host.Outcome State Fault Refusal) : Option State :=
  match o with
  | .next t => some t
  | .fault _ => none
  | .refused _ => none

/-- A running state in mode `m` with these ingress and egress values, `V[k]` equal to `v` for every `k`, and `text` as its
only program line, at source line 3. -/
def sample (text : String) (m : Mode) (ip i1 i2 ep e v : Int) : State :=
  { State.reset with
    x := #v[ip, i1, i2, ep, e, v, v, v, v, v, v, v, v, v, v], mode := m, prog := [{ line := 3, text := text.toList }] }

/-! ### Well-formedness (R77): each check refuses an ill-formed term -/

theorem test_wf_setVariable : (Instr.setVariable 10 1).wellFormed = false := by decide
theorem test_wf_load : (Instr.load 10).wellFormed = false := by decide
theorem test_wf_loadPrimed : (Instr.loadPrimed 11).wellFormed = false := by decide
theorem test_wf_store : (Instr.store 10).wellFormed = false := by decide
theorem test_wf_storePrimed : (Instr.storePrimed 99).wellFormed = false := by decide
theorem test_wf_print : (Instr.print 10).wellFormed = false := by decide

/-! ### Decoding: one line per constructor, written out from R75 and R86 (vectors D-1 to D-20) -/

theorem test_decode_selectAdd : decode ['+'] = .ok .selectAdd := by rfl
theorem test_decode_selectSubtract : decode ['-'] = .ok .selectSubtract := by rfl
theorem test_decode_selectMultiply : decode ['*'] = .ok .selectMultiply := by rfl
theorem test_decode_selectDivide : decode ['/'] = .ok .selectDivide := by rfl
theorem test_decode_setVariable : decode ['N', ' ', '9', ' ', '-', '7'] = .ok (.setVariable 9 (-7)) := by rfl
theorem test_decode_load : decode ['L', ' ', '9'] = .ok (.load 9) := by rfl
theorem test_decode_loadPrimed : decode ['L', '\'', ' ', '3'] = .ok (.loadPrimed 3) := by rfl
theorem test_decode_store : decode ['S', ' ', '0'] = .ok (.store 0) := by rfl
theorem test_decode_storePrimed : decode ['S', '\'', ' ', '9'] = .ok (.storePrimed 9) := by rfl
theorem test_decode_print : decode ['P', ' ', '0'] = .ok (.print 0) := by rfl
theorem test_decode_jumpForward : decode ['F', ' ', '-', '3'] = .ok (.jumpForward (-3)) := by rfl
theorem test_decode_jumpBackward : decode ['B', ' ', '1', '0', '0', '0', '0', '0'] = .ok (.jumpBackward 100000) := by rfl
theorem test_decode_jumpForwardIfRunup : decode ['?', 'F', ' ', '2'] = .ok (.jumpForwardIfRunup 2) := by rfl
theorem test_decode_jumpBackwardIfRunup : decode ['?', 'B', ' ', '-', '1'] = .ok (.jumpBackwardIfRunup (-1)) := by rfl

/-- D-40, D-42, D-43: a signed index with a leading zero; tabs; a carriage return. -/
theorem test_decode_forms :
    decode "N +09 3".toList = .ok (.setVariable 9 3) ∧ decode "N\t0\t1".toList = .ok (.setVariable 0 1) ∧
    decode "N 0 5\r".toList = .ok (.setVariable 0 5) ∧ decode "N 0 -0".toList = .ok (.setVariable 0 0) :=
  ⟨rfl, rfl, rfl, rfl⟩

/-- D-7, D-8, D-9, D-21, D-24, D-25, D-28: the four causes. -/
theorem test_decode_rejects :
    decode "N 10 1".toList = .error .indexOutOfRange ∧ decode "N -1 1".toList = .error .indexOutOfRange ∧
    decode "N 0".toList = .error .wrongOperandCount ∧ decode "+ 1".toList = .error .wrongOperandCount ∧
    decode "L ' 0".toList = .error .wrongOperandCount ∧ decode "n 0 1".toList = .error .unknownOpcode ∧
    decode "-5".toList = .error .unknownOpcode :=
  ⟨rfl, rfl, rfl, rfl, rfl, rfl, rfl⟩

/-- D-32 to D-37, D-44, D-45: what is no integer literal, and characters that are no whitespace. -/
theorem test_decode_literals :
    decode "N 0 1.5".toList = .error .notAnInteger ∧ decode "N 0 0x10".toList = .error .notAnInteger ∧
    decode "N 0 --1".toList = .error .notAnInteger ∧ decode "F +".toList = .error .notAnInteger ∧
    decode "N 0 \u0661".toList = .error .notAnInteger ∧ decode "\u00a0N 0 1".toList = .error .unknownOpcode :=
  ⟨rfl, rfl, rfl, rfl, rfl, rfl⟩

theorem test_encode : encode (.setVariable 9 (-70)) = "N 9 -70".toList := by rfl

/-- The preprocessing vector of section 2.1, shortened: comments and blanks dropped, source line numbers kept. -/
theorem test_preprocess :
    preprocess "# h\n\n+   # add\nN 0 7\n  \nQ\n".toList =
      [{ line := 3, text := ['+'] }, { line := 4, text := "N 0 7".toList }, { line := 6, text := ['Q'] }] := by rfl

/-- R73: the five whitespace characters, and their neighbours U+0008, U+000A, U+000E, U+001F, U+0021, U+0085, U+00A0. -/
theorem test_whitespace_set :
    ([0x09, 0x0B, 0x0C, 0x0D, 0x20].all fun n => isBlankChar (Char.ofNat n)) = true ∧
    ([0x08, 0x0A, 0x0E, 0x1F, 0x21, 0x85, 0xA0].any fun n => isBlankChar (Char.ofNat n)) = false := by decide

/-- R71: the second `#` of a line is removed with the rest of the comment; a line that starts with one has no entry. -/
theorem test_comment : preprocess "#P 0\n\tP 1 # a # b".toList = [{ line := 2, text := "P 1".toList }] := by rfl

/-- The byte layout of log 7: `P 0`, first character in the lowest byte. -/
theorem test_table_word : decodeTableWord 24 0x302050 = some (.print 0) ∧ decodeTableWord 8 0x2F = some .selectDivide :=
  ⟨rfl, rfl⟩

/-- A placed `+` runs as the first instruction after reset. -/
theorem test_fetch_word :
    (nextOf (step (State.reset.withFetchWord 8 0x2B))).map (fun t => (t.mode, t.pc, t.steps)) = some (.add, 1, 1) := by
  decide

/-! ### Instructions (sections 2.2 to 2.4) -/

/-- MS-2. -/
theorem test_selectAdd :
    (nextOf (exec .selectAdd { sample "+" .subtract 0 5 3 0 0 0 with runup := true })).map
      (fun t => (t.mode, t.runup, t.e)) = some (.add, false, 8) := by decide

/-- MS-3: the evaluation of the select's own step sets runup again. -/
theorem test_selectAdd_trips :
    (nextOf (exec .selectAdd (sample "+" .add 0 99999 1 0 0 0))).map (fun t => (t.runup, t.e)) = some (true, 100000) := by
  decide

/-- MS-4. -/
theorem test_selectSubtract :
    (nextOf (exec .selectSubtract (sample "-" .add 0 3 5 0 0 0))).map (fun t => (t.mode, t.runup, t.e)) =
      some (.subtract, true, -2) := by decide

/-- MS-6, and A-M8: a negative product (D2). -/
theorem test_selectMultiply :
    (nextOf (exec .selectMultiply { sample "*" .add 0 12345 100 0 0 0 with runup := true })).map
      (fun t => (t.mode, t.runup, t.e, t.ep)) = some (.multiply, false, 34500, 12) ∧
    (nextOf (exec .selectMultiply (sample "*" .add 0 (-3) 5 0 0 0))).map (fun t => (t.e, t.ep)) = some (99985, -1) := by
  decide

/-- MS-7 with A-D10: by 0, the egress slots stay. -/
theorem test_selectDivide_zero :
    (nextOf (exec .selectDivide (sample "/" .unset 0 7 0 11 22 0))).map (fun t => (t.mode, t.runup, t.ep, t.e)) =
      some (.divide, true, 11, 22) := by decide

/-- A-D3 and A-D8: the remainder has the divisor's sign (D2); a quotient above 99999 sets runup. -/
theorem test_selectDivide :
    (nextOf (exec .selectDivide (sample "/" .unset 0 7 (-2) 11 22 0))).map (fun t => (t.ep, t.e, t.runup)) =
      some (-4, -1, false) ∧
    (nextOf (exec .selectDivide (sample "/" .unset 1 0 1 11 22 0))).map (fun t => (t.ep, t.e, t.runup)) =
      some (100000, 0, true) := by decide

/-- DT-1, with the change entry of R110. -/
theorem test_setVariable :
    (nextOf (exec (.setVariable 0 (-15)) (sample "N 0 -15" .unset 0 0 0 0 0 15))).map
      (fun t => (t.read (varSlot 0), t.read (varSlot 1), t.trace.map (·.changes))) =
      some (-15, 15, [[(5, -15)]]) := by decide

/-- DT-5 and DT-6. -/
theorem test_load :
    (nextOf (exec (.load 0) (sample "L 0" .add 0 0 0 0 0 5))).map (fun t => (t.i1, t.i2, t.e)) = some (5, 0, 5) ∧
    (nextOf (exec (.load 1) (sample "L 1" .add 0 5 0 0 5 3))).map (fun t => (t.i1, t.i2, t.e)) = some (5, 3, 8) := by
  decide

/-- DT-3: in Unset mode a load takes InvalidState at its source line and writes nothing. -/
theorem test_load_unset :
    exec (.load 0) (sample "L 0" .unset 0 0 0 0 0 5) =
      .next { sample "L 0" .unset 0 0 0 0 0 5 with status := .error .invalidState 3 } := by rfl

/-- DT-10. -/
theorem test_loadPrimed :
    (nextOf (exec (.loadPrimed 0) (sample "L' 0" .divide 0 50000 3 0 0 2))).map (fun t => (t.ip, t.ep, t.e)) =
      some (2, 83333, 1) := by decide

/-- DT-12 with R113: the value stored is the E before the step's own evaluation. -/
theorem test_store :
    (nextOf (exec (.store 2) (sample "S 2" .add 0 5 3 0 7 0))).map (fun t => (t.read (varSlot 2), t.e)) = some (7, 8) := by
  decide

/-- DT-14. -/
theorem test_storePrimed :
    (nextOf (exec (.storePrimed 1) (sample "S' 1" .multiply 0 12345 100 12 34500 0))).map
      (fun t => (t.read (varSlot 1), t.trace.map (·.changes))) = some (12, [[(6, 12)]]) := by decide

/-- DT-17. -/
theorem test_print :
    (nextOf (exec (.print 9) { sample "P 9" .unset 0 0 0 0 0 (-4) with out := [1] })).map (fun t => (t.out, t.pc)) =
      some ([1, -4], 1) := by decide

/-- CT-1 and CT-2. -/
theorem test_jumpForward :
    (nextOf (exec (.jumpForward 2) (sample "F 2" .unset 0 0 0 0 0 0))).map (·.pc) = some 2 ∧
    (nextOf (exec (.jumpForward 0) (sample "F 0" .unset 0 0 0 0 0 0))).map (·.pc) = some 0 := by decide

/-- R121: a target below 0 is not checked when the jump executes. -/
theorem test_jumpBackward :
    (nextOf (exec (.jumpBackward 3) (sample "B 3" .unset 0 0 0 0 0 0))).map (fun t => (t.pc, t.status)) =
      some (-3, .running) := by decide

/-- CT-9 and CT-10. -/
theorem test_jumpForwardIfRunup :
    (nextOf (exec (.jumpForwardIfRunup 2) (sample "?F 2" .unset 0 0 0 0 0 0))).map (·.pc) = some 1 ∧
    (nextOf (exec (.jumpForwardIfRunup 2) { sample "?F 2" .unset 0 0 0 0 0 0 with runup := true })).map
      (fun t => (t.pc, t.runup)) = some (2, true) := by decide

/-- R205: the evaluation of the jump's own step does not affect it. -/
theorem test_jumpBackwardIfRunup :
    (nextOf (exec (.jumpBackwardIfRunup 5) (sample "?B 5" .add 0 99999 1 0 0 0))).map (fun t => (t.pc, t.runup)) =
      some (1, true) ∧
    (nextOf (exec (.jumpBackwardIfRunup 5) { sample "?B 5" .add 0 0 0 0 0 0 with runup := true })).map (·.pc) =
      some (-5) := by decide

/-- R139: the evaluation's writes follow the proper's in the change list when TRACE_ALU_CHANGES is set. -/
theorem test_alu_changes :
    (nextOf (exec (.setVariable 0 5)
      { sample "N 0 5" .multiply 0 12345 100 0 0 0 with traceAluChanges := true })).map (fun t => t.trace.map (·.changes)) =
      some [[(5, 5), (4, 34500), (3, 12)]] := by decide

/-! ### The sequencer (section 2.6) -/

/-- SQ-4: a budget of 0 reports the first instruction's line. -/
theorem test_budget_zero :
    step { sample "N 0 1" .unset 0 0 0 0 0 0 with maxSteps := 0 } =
      .next { sample "N 0 1" .unset 0 0 0 0 0 0 with maxSteps := 0, status := .error .stepLimitExceeded 3 } := by rfl

/-- SQ-7: decode precedes the mode check. -/
theorem test_decode_first :
    nextOf (step (sample "L 10" .unset 0 0 0 0 0 0)) =
      some { sample "L 10" .unset 0 0 0 0 0 0 with status := .error .decodeError 3 } := by decide

/-- SQ-1 and the step from a finished run. -/
theorem test_reset_completes :
    step State.reset = .next { State.reset with status := .done } ∧
    step { State.reset with status := .done } = .fault .runIsOver := ⟨rfl, rfl⟩

/-! ### Witnesses: each meets the hypotheses of the statement it names -/

/-- A record of a step at source line 3. -/
def record : TraceRecord :=
  { step := 0, mode := .unset, runup := false, line := 3, changes := [], text := ['B', ' ', '1'],
    regs := Vector.replicate 15 0 }

/-- A state after one step that jumped to -1. -/
def jumpedBelow : State :=
  { State.reset with prog := [{ line := 3, text := ['B', ' ', '1'] }], pc := -1, steps := 1, trace := [record] }

/-- A state at the end of a run of one step. -/
def finished : State := { jumpedBelow with pc := 1, status := .done }

theorem finished_coherent : finished.Coherent := by
  refine ⟨⟨rfl, ?_, ?_, ?_, by simp [finished, jumpedBelow]⟩, ?_, fun _ => ⟨rfl, rfl, rfl, rfl, rfl, rfl⟩,
    ⟨rfl, rfl, rfl⟩⟩
  · rintro (_ | n) r h
    · cases h; rfl
    · cases h
  · simp [finished, jumpedBelow, record]
  · rintro r h; cases h; exact ⟨rfl, rfl, rfl⟩
  · show 1 ≤ 1000; omega

theorem jumpedBelow_coherent : jumpedBelow.Coherent := by
  obtain ⟨⟨h1, h2, h3, h4, -⟩, h6, h7, h8⟩ := finished_coherent
  exact ⟨⟨h1, h2, h3, h4, by simp [jumpedBelow]⟩, h6, h7, h8⟩

theorem witness_DecodeEncodeRoundTrip :
    (Instr.setVariable 9 (-7)).wellFormed = true ∧ (Instr.load 0).wellFormed = true := by decide

theorem witness_DecodedInstrIsWellFormed : decode ['L', ' ', '9'] = .ok (.load 9) := by rfl

theorem witness_AssembledProgramRoundTrip :
    ∀ i ∈ [Instr.selectAdd, .setVariable 0 (-5), .print 9], i.wellFormed = true := by decide

/-- What stands to the right of the equivalence is met, by a line with whitespace at both ends and a comment. -/
theorem witness_PreprocessKeepsInstructionLines :
    (splitLines "\t+ #x".toList)[0]? = some (['\t', '+', ' '] ++ ['#', 'x']) ∧ '#' ∉ ['\t', '+', ' '] ∧
      ['\t', '+', ' '] = ['\t'] ++ ['+'] ++ [' '] ∧ isBlankChar '\t' = true ∧ isBlankChar ' ' = true ∧
      isBlankChar '+' = false ∧ { line := 1, text := ['+'] : Entry } ∈ preprocess "\t+ #x".toList := by decide

theorem witness_TokensSplitAtWhitespace :
    isBlankChar '\t' = true ∧ (['N', '1'] : Text) ≠ [] ∧ ∀ c ∈ (['N', '1'] : Text), isBlankChar c = false :=
  ⟨rfl, by simp, by simp [isBlankChar]⟩

theorem witness_OperandCountMustEqualArity :
    tokens "N 3".toList = [['N'], ['3']] ∧ Opcode.setVariable.mnemonic = ['N'] ∧ [['3']].length ≠ 2 := by decide

theorem witness_VariableIndexMustBeInRange :
    (tokens "N 9 -7".toList = ['N'] :: ['9'] :: [['-', '7']] ∧ intLiteral? ['9'] = some 9 ∧
      intLiterals? [['-', '7']] = some [-7]) ∧
    (tokens "S' 10".toList = ['S', '\''] :: ['1', '0'] :: [] ∧ intLiteral? ['1', '0'] = some 10 ∧
      intLiterals? [] = some []) := by decide

theorem witness_LinesDecodeByFormat :
    tokens "X 1".toList = ['X'] :: [['1']] ∧ tokens "+".toList = ['+'] :: [] ∧ tokens "L 0".toList = ['L'] :: [['0']] ∧
    tokens "B -1".toList = ['B'] :: [['-', '1']] ∧ tokens "N 9 0".toList = ['N'] :: [['9'], ['0']] := by decide

theorem witness_StepRunsDecodedInstruction :
    (sample "P 0" .unset 0 0 0 0 0 0).status = .running ∧ (sample "P 0" .unset 0 0 0 0 0 0).steps < 1000 ∧
    (sample "P 0" .unset 0 0 0 0 0 0).currentEntry = some { line := 3, text := ['P', ' ', '0'] } ∧
    decode ['P', ' ', '0'] = .ok (.print 0) := ⟨rfl, by decide, rfl, rfl⟩

/-- A program store of two lines, and another that differs in the line not at `pc`. -/
theorem witness_UnfetchedLinesDoNotMatter :
    let s := { State.reset with prog := [{ line := 1, text := ['+'] }, { line := 2, text := ['Q'] }] }
    let prog : List Entry := [{ line := 1, text := ['+'] }, { line := 7, text := ['-'] }]
    prog.length = s.prog.length ∧ ({ s with prog := prog } : State).currentEntry = s.currentEntry ∧
    (∃ t, step s = .next t) ∧ step { s with status := .done } = .fault .runIsOver := ⟨rfl, rfl, ⟨_, rfl⟩, rfl⟩

theorem witness_PlacedWordIsRunNext : decodeTableWord 8 0x2B = some .selectAdd := by rfl

theorem witness_StepsExactlyWhileRunning : State.reset.status = .running ∧ finished.status ≠ .running := by decide

/-- The hypothesis of the mode-select, store, print, set-variable and jump results. -/
theorem witness_SelectAddResult :
    (sample "+" .unset 0 0 0 0 0 0).currentEntry = some { line := 3, text := ['+'] } ∧
    tokens ['+'] = ['+'] :: [] := by decide
theorem witness_SelectSubtractResult :
    (sample "-" .add 0 3 5 0 0 0).currentEntry = some { line := 3, text := ['-'] } ∧
    tokens "-5".toList = ('-' :: '5' :: []) :: [] := by decide
theorem witness_SelectMultiplyResult :
    (sample "*" .add 0 (-3) 5 0 0 0).currentEntry = some { line := 3, text := ['*'] } := by decide
theorem witness_SelectDivideResult :
    (sample "/" .add 0 7 0 0 0 0).currentEntry = some { line := 3, text := ['/'] } ∧ (sample "/" .add 0 7 0 0 0 0).i2 = 0 ∧
    (sample "/" .add 0 7 2 0 0 0).currentEntry = some { line := 3, text := ['/'] } ∧
    (sample "/" .add 0 7 2 0 0 0).i2 ≠ 0 := by decide
theorem witness_SetVariableResult :
    (sample "N 9 1" .unset 0 0 0 0 0 0).currentEntry = some { line := 3, text := "N 9 1".toList } := by decide
theorem witness_LoadResult :
    (sample "L 0" .add 0 0 3 0 0 5).currentEntry = some { line := 3, text := "L 0".toList } ∧
    (sample "L 0" .add 0 0 3 0 0 5).mode ≠ .unset ∧ (sample "L 0" .add 0 0 3 0 0 5).i1 = 0 ∧
    (sample "L 9" .add 0 1 3 0 0 5).currentEntry = some { line := 3, text := "L 9".toList } ∧
    (sample "L 9" .add 0 1 3 0 0 5).mode ≠ .unset ∧ (sample "L 9" .add 0 1 3 0 0 5).i1 ≠ 0 := by decide
theorem witness_LoadPrimedResult :
    (sample "L' 0" .divide 0 0 3 0 0 5).currentEntry = some { line := 3, text := "L' 0".toList } ∧
    (sample "L' 0" .divide 0 0 3 0 0 5).mode ≠ .unset := by decide
theorem witness_OnlyLoadsNeedMode :
    (Instr.load 9).wellFormed = true ∧
    (sample "L 9" .unset 0 0 0 0 0 0).currentEntry = some { line := 3, text := "L 9".toList } ∧
    (Instr.load 9).isLoad ∧ (sample "L 9" .unset 0 0 0 0 0 0).mode = .unset ∧
    ¬((Instr.load 9).isLoad ∧ (sample "L 9" .add 0 0 0 0 0 0).mode = .unset) :=
  ⟨by decide, by decide, ⟨9, .inl rfl⟩, rfl, by rintro ⟨-, h⟩; cases h⟩
theorem witness_StoreResult :
    (sample "S 0" .add 0 5 3 0 8 0).currentEntry = some { line := 3, text := "S 0".toList } := by decide
theorem witness_StorePrimedResult :
    (sample "S' 9" .multiply 0 5 3 0 15 0).currentEntry = some { line := 3, text := "S' 9".toList } := by decide
theorem witness_PrintResult :
    (sample "P 0" .add 0 5 3 0 8 1).currentEntry = some { line := 3, text := "P 0".toList } := by decide
theorem witness_IllFormedIndexTakesDecodeError :
    (Instr.print 10).wellFormed = false ∧
    (sample "P 0" .add 0 0 0 0 0 0).currentEntry = some { line := 3, text := "P 0".toList } := by decide
theorem witness_JumpForwardResult :
    (sample "F -1" .add 0 5 3 0 8 0).currentEntry = some { line := 3, text := "F -1".toList } := by decide
theorem witness_JumpBackwardResult :
    (sample "B 0" .add 0 5 3 0 8 0).currentEntry = some { line := 3, text := "B 0".toList } := by decide
theorem witness_JumpForwardIfRunupResult :
    (sample "?F 2" .add 0 5 3 0 8 0).currentEntry = some { line := 3, text := "?F 2".toList } ∧
    (sample "?F 2" .add 0 5 3 0 8 0).runup = false ∧
    ({ sample "?F 2" .add 0 5 3 0 8 0 with runup := true } : State).currentEntry =
      some { line := 3, text := "?F 2".toList } := by decide
theorem witness_JumpBackwardIfRunupResult :
    (sample "?B 2" .add 0 5 3 0 8 0).currentEntry = some { line := 3, text := "?B 2".toList } ∧
    (sample "?B 2" .add 0 5 3 0 8 0).runup = false ∧
    ({ sample "?B 2" .add 0 5 3 0 8 0 with runup := true } : State).currentEntry =
      some { line := 3, text := "?B 2".toList } := by decide
theorem witness_ProgramCounterAdvance :
    (Instr.load 0).wellFormed = true ∧
    (sample "L 0" .add 0 0 0 0 0 0).currentEntry = some { line := 3, text := "L 0".toList } ∧
    ¬((Instr.load 0).isLoad ∧ (sample "L 0" .add 0 0 0 0 0 0).mode = .unset) :=
  ⟨by decide, by decide, by rintro ⟨-, h⟩; cases h⟩

theorem witness_EvaluateAdd : (sample "+" .add 0 99999 1 0 0 0).mode = .add := rfl
theorem witness_EvaluateSubtract : (sample "+" .subtract 0 0 1 0 0 0).mode = .subtract := rfl
theorem witness_EvaluateMultiply : (sample "+" .multiply 0 (-1) 1 0 0 0).mode = .multiply := rfl
theorem witness_EvaluateDivide :
    (sample "+" .divide 0 7 0 0 0 0).mode = .divide ∧ (sample "+" .divide 0 7 0 0 0 0).i2 = 0 ∧
    (sample "+" .divide 0 7 (-2) 0 0 0).mode = .divide ∧ (sample "+" .divide 0 7 (-2) 0 0 0).i2 ≠ 0 := by decide

theorem witness_EvaluationRepeats :
    evaluate (sample "S 0" .add 0 5 3 0 8 0) = sample "S 0" .add 0 5 3 0 8 0 ∧
    (∃ t, exec (.store 0) (sample "S 0" .add 0 5 3 0 8 0) = .next t) ∧
    ¬(Instr.store 0).isLoad ∧ ¬(Instr.store 0).isModeSelect :=
  ⟨by decide, ⟨_, rfl⟩, by simp [Instr.isLoad], by simp [Instr.isModeSelect]⟩

theorem witness_RunupClearedOnlyByModeSelect :
    ({ sample "+" .add 0 0 0 0 0 0 with runup := true } : State).runup = true ∧
    (∃ t, exec .selectAdd { sample "+" .add 0 0 0 0 0 0 with runup := true } = .next t ∧ t.runup = false) ∧
    Instr.selectAdd.isModeSelect ∧
    (sample "+" .add 0 0 0 0 0 0).currentEntry = some { line := 3, text := ['+'] } :=
  ⟨rfl, ⟨_, rfl, rfl⟩, .inl rfl, rfl⟩

theorem witness_OnlyConditionalJumpsReadRunup :
    ¬(Instr.print 0).isConditionalJump ∧ (∃ t, exec (.print 0) (sample "P 0" .add 0 0 0 0 0 0) = .next t ∧ t.steps = 1) ∧
    (∃ t, exec (.print 0) { sample "P 0" .add 0 0 0 0 0 0 with runup := true } = .next t) ∧
    (sample "P 0" .add 0 0 0 0 0 0).currentEntry = some { line := 3, text := "P 0".toList } :=
  ⟨by simp [Instr.isConditionalJump], ⟨_, rfl, rfl⟩, ⟨_, rfl⟩, rfl⟩

theorem witness_AluTracingAffectsOnlyChangeLists :
    (∃ t, step (sample "P 0" .add 0 5 3 0 0 0) = .next t) ∧
    (∃ t, step { sample "P 0" .add 0 5 3 0 0 0 with traceAluChanges := true } = .next t) := ⟨⟨_, rfl⟩, ⟨_, rfl⟩⟩

/-- Every clause's premise is met: each slot does change. -/
theorem witness_RegisterWriters :
    (∃ t, exec (.loadPrimed 0) (sample "L' 0" .add 0 0 0 0 0 5) = .next t ∧ t.ip ≠ 0) ∧
    (∃ t, exec (.load 0) (sample "L 0" .multiply 0 0 100000 0 0 5) = .next t ∧ t.i1 ≠ 0 ∧ t.ep ≠ 0) ∧
    (∃ t, exec (.load 0) (sample "L 0" .add 0 1 0 0 0 5) = .next t ∧ t.i2 ≠ 0 ∧ t.e ≠ 0) ∧
    (∃ t, exec (.store 9) (sample "S 9" .unset 0 0 0 0 4 5) = .next t ∧ t.read (varSlot 9) ≠ 5) :=
  ⟨⟨_, rfl, by decide⟩, ⟨_, rfl, by decide, by decide⟩, ⟨_, rfl, by decide, by decide⟩, ⟨_, rfl, by decide⟩⟩

theorem witness_ModeLatchPersists :
    (∃ t, exec .selectDivide (sample "/" .unset 0 0 0 0 0 0) = .next t ∧ t.mode ≠ .unset) ∧
    (∃ t, step (sample "P 0" .add 0 0 0 0 0 0) = .next t) ∧ (sample "P 0" .add 0 0 0 0 0 0).mode ≠ .unset :=
  ⟨⟨_, rfl, by decide⟩, ⟨_, rfl⟩, by decide⟩

/-- The premise of the statements about every step with a next state: `OutputGrowsOnlyByPrint`,
`ProgramAndConfigurationNeverChange`, `EveryStepRecordsOrEnds` and `StatusAlwaysExplained`. -/
theorem witness_every_step :
    (∃ t, step (sample "P 0" .add 0 0 0 0 0 7) = .next t ∧ t.out = [7] ∧ t.status = .running) ∧
    (∃ t, step jumpedBelow = .next t ∧ t.status = .error .runtimeFault 3) := ⟨⟨_, rfl, by decide, rfl⟩, ⟨_, rfl, rfl⟩⟩

theorem witness_EndingStepChangesOnlyStatus :
    (∃ t, step jumpedBelow = .next t ∧ t.status ≠ .running) ∧ (∃ t, step State.reset = .next t ∧ t.status ≠ .running) :=
  ⟨⟨_, rfl, by decide⟩, ⟨_, rfl, by decide⟩⟩

theorem witness_NormalCompletion :
    State.reset.status = .running ∧ (State.reset.prog.length : Int) ≤ State.reset.pc ∧
    preprocess "# only a comment\n".toList = [] := ⟨rfl, by decide, rfl⟩

theorem witness_StepLimitExceededAtBudget :
    let s := { jumpedBelow with pc := 0, maxSteps := 1 }
    (s.status = .running ∧ s.pc < s.prog.length ∧ s.maxSteps ≤ s.steps ∧ s.maxSteps = 0 + 1 ∧ s.trace[0]? = some record) ∧
    (let z := { sample "P 0" .unset 0 0 0 0 0 0 with maxSteps := 0 }
     z.status = .running ∧ z.pc < z.prog.length ∧ z.maxSteps ≤ z.steps ∧ z.maxSteps = 0 ∧
       z.currentEntry = some { line := 3, text := "P 0".toList }) := by decide

theorem witness_NegativePcTakesRuntimeFault :
    jumpedBelow.status = .running ∧ jumpedBelow.pc < 0 ∧ jumpedBelow.steps < jumpedBelow.maxSteps ∧
    jumpedBelow.steps = 0 + 1 ∧ jumpedBelow.trace[0]? = some record := by decide

theorem witness_MalformedLineTakesDecodeError :
    (sample "L 10" .unset 0 0 0 0 0 0).status = .running ∧ (sample "L 10" .unset 0 0 0 0 0 0).steps < 1000 ∧
    (sample "L 10" .unset 0 0 0 0 0 0).currentEntry = some { line := 3, text := "L 10".toList } ∧
    decode "L 10".toList = .error .indexOutOfRange := ⟨rfl, by decide, rfl, rfl⟩

theorem witness_SuccessResultIsTriple :
    finished.Coherent ∧ finished.status = .done ∧ finished.trace.getLast? = some record := ⟨finished_coherent, rfl, rfl⟩

/-- The clause of a run without a record: the same finished run with nothing executed. -/
theorem witness_SuccessResultIsTriple_empty :
    ({ State.reset with status := .done } : State).Coherent ∧ ({ State.reset with status := .done } : State).trace = [] :=
  ⟨⟨⟨rfl, by simp [State.reset], by simp [State.reset], by simp [State.reset], fun _ => ⟨rfl, rfl, rfl, rfl, rfl⟩⟩,
    Nat.zero_le _, fun _ => ⟨rfl, rfl, rfl, rfl, rfl, rfl⟩, ⟨rfl, rfl, rfl⟩⟩, rfl⟩

theorem witness_ErrorDiscardsPartialResult :
    ({ jumpedBelow with status := .error .runtimeFault 3 } : State).status = .error .runtimeFault 3 ∧
    ({ State.reset with prog := jumpedBelow.prog, status := .error .runtimeFault 3 } : State).status =
      .error .runtimeFault 3 := ⟨rfl, rfl⟩

theorem witness_StepKeepsCoherent : jumpedBelow.Coherent ∧ ∃ t, step jumpedBelow = .next t :=
  ⟨jumpedBelow_coherent, ⟨_, rfl⟩⟩

theorem witness_RunEndsWithinBudget : jumpedBelow.status = .running ∧ State.reset.status = .running := ⟨rfl, rfl⟩

theorem witness_WholeRunAnswers :
    runProgram [] 0 false 0 = some (.success { trace := [], out := [], registers := Vector.replicate 15 0 }) := by rfl

end Sys2Proof.Tests
end

section
/-! PROOFS. Who reads the runup latch (R29), by one simulation: `forgetRunup` clears every runup a state shows, and an
instruction other than `?F` and `?B` runs on the cleared state as on the state itself. -/

namespace Sys2Proof.Machine

/-- A trace record with its runup field cleared. -/
def TraceRecord.forgetRunup (r : TraceRecord) : TraceRecord := { r with runup := false }

/-- A state with every runup it shows cleared: the latch and the runup field of each trace record. -/
def State.forgetRunup (s : State) : State :=
  { s with runup := false, trace := s.trace.map TraceRecord.forgetRunup }

/-- An effect with every runup its state shows cleared. -/
def Effect.forgetRunup (f : Effect) : Effect := { f with state := f.state.forgetRunup }

/-! ### The operations under `forgetRunup` -/

theorem forgetRunup_setRunup (s : State) (b : Bool) : ({ s with runup := b } : State).forgetRunup = s.forgetRunup := rfl

@[simp] theorem forgetRunup_forgetRunup (s : State) : s.forgetRunup.forgetRunup = s.forgetRunup := by
  simp [State.forgetRunup, TraceRecord.forgetRunup]

@[simp] theorem forgetRunup_currentEntry (s : State) : s.forgetRunup.currentEntry = s.currentEntry := rfl

/-- The line of the last executed instruction is read from the trace, but from no runup field. -/
@[simp] theorem forgetRunup_lastLine (s : State) : s.forgetRunup.lastLine = s.lastLine := by
  cases hs : s.steps with
  | zero => simp [State.lastLine, State.lineOfStep, State.forgetRunup, hs]
  | succ m =>
    cases hm : s.trace[m]? <;>
      simp [State.lastLine, State.lineOfStep, State.forgetRunup, TraceRecord.forgetRunup, hs, hm]

theorem forgetRunup_writeAll (s : State) (cs : List Change) :
    s.forgetRunup.writeAll cs = (s.writeAll cs).forgetRunup := by
  induction cs generalizing s with
  | nil => rfl
  | cons c cs ih => exact ih (s.write c.1 c.2)

/-- The evaluation computes nothing from runup; it only keeps it set. -/
theorem evaluate_forgetRunup (s : State) : (evaluate s.forgetRunup).forgetRunup = (evaluate s).forgetRunup :=
  calc (evaluate s.forgetRunup).forgetRunup
      = (s.forgetRunup.writeAll (evalWrites s)).forgetRunup := rfl
    _ = (s.writeAll (evalWrites s)).forgetRunup := by rw [forgetRunup_writeAll, forgetRunup_forgetRunup]
    _ = (evaluate s).forgetRunup := rfl

theorem retire_forgetRunup (e : Entry) (cs : List Change) (s : State) :
    (retire e cs s.forgetRunup).forgetRunup = (retire e cs s).forgetRunup := by
  simp [retire, State.forgetRunup, TraceRecord.forgetRunup]

/-- What follows the instruction proper copies runup and decides nothing by it. -/
theorem finishStep_forgetRunup (e : Entry) (f : Effect) :
    (finishStep e f.forgetRunup).forgetRunup = (finishStep e f).forgetRunup := by
  have hret : ∀ {s t : State} (cs : List Change), s.forgetRunup = t.forgetRunup →
      (retire e cs s).forgetRunup = (retire e cs t).forgetRunup := fun cs h => by
    rw [← retire_forgetRunup, h, retire_forgetRunup]
  have heval := evaluate_forgetRunup f.state
  obtain ⟨s, taken, changes⟩ := f
  cases taken with
  | true => exact hret _ heval
  | false => exact hret _ (congrArg State.advance heval)

/-! ### The instructions under `forgetRunup` -/

theorem withVariable_map (k : Nat) (f : Slot → Except ErrorKind Effect) (g : Effect → Effect) :
    (withVariable k f).map g = withVariable k fun v => (f v).map g := by
  unfold withVariable
  cases variableSlot? k <;> rfl

theorem requireMode_map (s : State) (p : Except ErrorKind Effect) (g : Effect → Effect) :
    (requireMode s p).map g = requireMode s (p.map g) := by
  unfold requireMode
  split <;> rfl

/-- R29: the instruction proper of anything but `?F` and `?B` reads no runup. -/
theorem properOf_forgetRunup {i : Instr} (hi : ¬i.isConditionalJump) (s : State) :
    properOf i s.forgetRunup = (properOf i s).map Effect.forgetRunup := by
  cases i with
  | selectAdd | selectSubtract | selectMultiply | selectDivide => rfl
  | setVariable k n | store k | storePrimed k | print k =>
    simp only [properOf, withVariable_map]
    rfl
  | load k | loadPrimed k =>
    simp only [properOf, withVariable_map, requireMode_map]
    rfl
  | jumpForward n | jumpBackward n => rfl
  | jumpForwardIfRunup n => exact absurd ⟨n, .inl rfl⟩ hi
  | jumpBackwardIfRunup n => exact absurd ⟨n, .inr rfl⟩ hi

/-- The simulation: run on the cleared state, an instruction but `?F` and `?B` leaves the same up to runup. -/
theorem exec_forgetRunup {i : Instr} {s t : State} (hi : ¬i.isConditionalJump) (h : exec i s = .next t) :
    ∃ u, exec i s.forgetRunup = .next u ∧ u.forgetRunup = t.forgetRunup := by
  rw [exec_eq_execute, properOf_forgetRunup hi]
  rcases exec_cases h with ⟨e, f, he, hp, rfl⟩ | ⟨e, kind, he, hp, rfl⟩ | ⟨he, rfl⟩
  · rw [hp]
    exact ⟨_, execute_ok f.forgetRunup he, finishStep_forgetRunup e f⟩
  · rw [hp]
    exact ⟨_, execute_error kind he, forgetRunup_forgetRunup (s.raise kind e.line)⟩
  · refine ⟨s.forgetRunup.raise .runtimeFault s.lastLine, by simp [execute, he], ?_⟩
    exact forgetRunup_forgetRunup (s.raise .runtimeFault s.lastLine)

/-- Two runs of an instruction but `?F` and `?B` from states that differ in runup only leave the same up to runup. -/
theorem exec_setRunup_forgetRunup {i : Instr} {s t t' : State} {b : Bool} (hi : ¬i.isConditionalJump)
    (h : exec i s = .next t) (h' : exec i { s with runup := b } = .next t') : t'.forgetRunup = t.forgetRunup := by
  obtain ⟨u, hu, hut⟩ := exec_forgetRunup hi h
  obtain ⟨u', hu', hut'⟩ := exec_forgetRunup hi h'
  rw [forgetRunup_setRunup, hu] at hu'
  cases hu'
  exact hut'.symm.trans hut

/-- What two states that are the same up to runup agree in. -/
theorem agree_of_forgetRunup_eq {s t : State} (h : s.forgetRunup = t.forgetRunup) :
    s.x = t.x ∧ s.mode = t.mode ∧ s.pc = t.pc ∧ s.out = t.out ∧ s.steps = t.steps ∧ s.status = t.status ∧
    s.trace.map TraceRecord.forgetRunup = t.trace.map TraceRecord.forgetRunup := by
  simp only [State.forgetRunup, State.mk.injEq] at h
  obtain ⟨hx, hmode, -, hpc, hsteps, hout, htrace, hstatus, -⟩ := h
  exact ⟨hx, hmode, hpc, hout, hsteps, hstatus, htrace⟩

/-! ### The readers of runup, and what a record shows of it -/

/-- The `pc` after a jump taken or not by the condition `c`, its target or the next instruction. -/
theorem finishStep_conditional_pc (e : Entry) (s : State) (c : Bool) (target : Int) :
    (finishStep e (if c then jumpTo s target else noWrite s)).pc = if c = true then target else s.pc + 1 := by
  obtain ⟨-, -, -, hpc, -⟩ := finishStep_fields e (if c then jumpTo s target else noWrite s)
  rw [hpc]
  cases c <;> rfl

/-- R122, R123: a conditional jump is decided by the runup at its start. -/
theorem exec_conditionalJump_pc {s : State} {e : Entry} (n : Int) (he : s.currentEntry = some e) :
    ∃ t t', exec (.jumpForwardIfRunup n) s = .next t ∧ exec (.jumpBackwardIfRunup n) s = .next t' ∧
      t.pc = (if s.runup = true then s.pc + n else s.pc + 1) ∧
      t'.pc = (if s.runup = true then s.pc - n else s.pc + 1) :=
  ⟨_, _, execute_ok _ he, execute_ok _ he, finishStep_conditional_pc e s s.runup (s.pc + n),
    finishStep_conditional_pc e s s.runup (s.pc - n)⟩

/-- R35 (D12): the record of a counted step shows the runup the step leaves. -/
theorem exec_record_runup {i : Instr} {s t : State} (h : exec i s = .next t) (hsteps : t.steps = s.steps + 1) :
    ∃ r, t.trace = s.trace ++ [r] ∧ r.runup = t.runup := by
  rcases exec_cases h with ⟨e, f, -, hp, rfl⟩ | ⟨e, kind, -, -, rfl⟩ | ⟨-, rfl⟩
  · obtain ⟨-, htrace, -⟩ := properOf_keeps hp
    obtain ⟨-, -, hrunup, -, -, -, hrecord, -⟩ := finishStep_fields e f
    exact ⟨_, htrace ▸ hrecord, hrunup.symm⟩
  · exact absurd hsteps (by simp)
  · exact absurd hsteps (by simp)

/-- Settles O39: the simulation under `forgetRunup` for every other instruction, the two conditional jumps, and the record
of a completed step. -/
theorem onlyConditionalJumpsReadRunup : Obligations.OnlyConditionalJumpsReadRunup :=
  ⟨fun _ _ _ _ _ hi h h' => agree_of_forgetRunup_eq (exec_setRunup_forgetRunup hi h h'),
    fun _ _ n he => exec_conditionalJump_pc n he,
    fun _ _ _ _ _ h hsteps => exec_record_runup h hsteps⟩

end Sys2Proof.Machine
end

section
/-! PROOFS. Tokens, entries and the decoder's checks (30_encoding.md). `tokensFrom` is described with its open token
general, by one induction on the text for each thing said of it; the decoder's answer is read off the opcode's format. -/

namespace Sys2Proof

/-! ### Whitespace and tokens (R73) -/

theorem isBlankChar_iff_toNat (c : Char) :
    isBlankChar c = true ↔
      c.toNat = 0x20 ∨ c.toNat = 0x09 ∨ c.toNat = 0x0D ∨ c.toNat = 0x0B ∨ c.toNat = 0x0C := by
  have heq : ∀ d : Char, c = d ↔ c.toNat = d.toNat := fun d =>
    ⟨congrArg Char.toNat, fun h => Char.toNat_inj.mp h⟩
  simp only [isBlankChar, Bool.or_eq_true, beq_iff_eq, heq, or_assoc]
  rfl

/-- While the open token holds no whitespace, no token is empty or holds any. -/
theorem mem_tokensFrom {cur text t : Text} (hcur : ∀ c ∈ cur, isBlankChar c = false) (ht : t ∈ tokensFrom cur text) :
    t ≠ [] ∧ ∀ c ∈ t, isBlankChar c = false := by
  induction text generalizing cur with
  | nil =>
    unfold tokensFrom at ht
    split at ht
    · cases ht
    · obtain rfl := List.mem_singleton.mp ht
      exact ⟨‹_›, hcur⟩
  | cons c cs ih =>
    unfold tokensFrom at ht
    split at ht
    · split at ht
      · exact ih (by simp) ht
      · rcases List.mem_cons.mp ht with rfl | ht
        · exact ⟨‹_›, hcur⟩
        · exact ih (by simp) ht
    · refine ih (fun d hd => ?_) ht
      rcases List.mem_append.mp hd with hd | hd
      · exact hcur d hd
      · obtain rfl := List.mem_singleton.mp hd
        simpa using ‹¬isBlankChar d = true›

theorem tokensFrom_flatten (cur text : Text) :
    (tokensFrom cur text).flatten = cur ++ text.filter fun c => !isBlankChar c := by
  induction text generalizing cur with
  | nil => by_cases h : cur = [] <;> simp [tokensFrom, h]
  | cons c cs ih =>
    cases hc : isBlankChar c with
    | true => by_cases h : cur = [] <;> simp [tokensFrom, hc, h, ih]
    | false => simp [tokensFrom, hc, ih]

/-- A whitespace character closes the open token, and the tokens start afresh behind it. -/
theorem tokensFrom_append_blank (cur a b : Text) {c : Char} (hc : isBlankChar c = true) :
    tokensFrom cur (a ++ c :: b) = tokensFrom cur a ++ tokens b := by
  induction a generalizing cur with
  | nil => by_cases h : cur = [] <;> simp [tokensFrom, tokens, hc, h]
  | cons d a ih =>
    cases hd : isBlankChar d with
    | true => by_cases h : cur = [] <;> simp [tokensFrom, hd, h, ih]
    | false => simp [tokensFrom, hd, ih]

/-- Characters that are not whitespace go on with the open token. -/
theorem tokensFrom_of_no_blank (cur : Text) {a : Text} (ha : ∀ c ∈ a, isBlankChar c = false) :
    tokensFrom cur a = tokensFrom (cur ++ a) [] := by
  induction a generalizing cur with
  | nil => simp
  | cons c a ih =>
    obtain ⟨hc, ha⟩ := List.forall_mem_cons.mp ha
    simp [tokensFrom, hc, ih _ ha]

theorem mem_of_mem_tokens {text tok : Text} {c : Char} (htok : tok ∈ tokens text) (hc : c ∈ tok) : c ∈ text := by
  have hflat : c ∈ (tokens text).flatten := List.mem_flatten.mpr ⟨tok, htok, hc⟩
  rw [tokens, tokensFrom_flatten] at hflat
  exact List.mem_of_mem_filter hflat

/-- Settles O6: the character set, and the laws of `tokensFrom` with no token open. -/
theorem tokensSplitAtWhitespace : Obligations.TokensSplitAtWhitespace := by
  refine ⟨isBlankChar_iff_toNat, fun text => ⟨fun t ht => mem_tokensFrom (by simp) ht, tokensFrom_flatten [] text⟩,
    fun a b c hc => tokensFrom_append_blank [] a b hc, fun a hne ha => ?_⟩
  calc tokens a = tokensFrom a [] := tokensFrom_of_no_blank [] ha
    _ = [a] := if_neg hne

/-! ### Entries (R71, R72) -/

theorem not_hash_mem_stripLine (raw : Text) : '#' ∉ stripLine raw := fun h => by
  obtain ⟨-, -, hkept, -⟩ := (stripComment_eq_iff raw _).mp rfl
  exact hkept ((trim_sublist _).subset h)

/-- R71 and R72, in raw characters: what it is for a raw line to leave the entry text `t`. -/
theorem stripLine_eq_iff (raw t : Text) :
    stripLine raw = t ∧ t ≠ [] ↔
      ∃ kept rest before after, raw = kept ++ rest ∧ '#' ∉ kept ∧ (rest = [] ∨ rest.head? = some '#') ∧
        kept = before ++ t ++ after ∧ (∀ c ∈ before, isBlankChar c = true) ∧ (∀ c ∈ after, isBlankChar c = true) ∧
        (∃ c, t.head? = some c ∧ isBlankChar c = false) ∧ (∃ c, t.getLast? = some c ∧ isBlankChar c = false) := by
  constructor
  · intro h
    obtain ⟨before, after, htrim⟩ := (trim_eq_iff (stripComment raw) t).mp h
    obtain ⟨rest, hraw, hkept, hrest⟩ := (stripComment_eq_iff raw _).mp rfl
    exact ⟨_, rest, before, after, hraw, hkept, hrest, htrim⟩
  · rintro ⟨kept, rest, before, after, hraw, hkept, hrest, htrim⟩
    have hstrip : stripComment raw = kept := (stripComment_eq_iff raw kept).mpr ⟨rest, hraw, hkept, hrest⟩
    rw [stripLine, hstrip]
    exact (trim_eq_iff kept t).mpr ⟨before, after, htrim⟩

theorem not_hash_mem_token_of_mem_preprocess {text tok : Text} {e : Entry} (he : e ∈ preprocess text)
    (htok : tok ∈ tokens e.text) : '#' ∉ tok := fun h => by
  obtain ⟨k, raw, -, -, hstrip, -⟩ := (mem_numberLines_iff _ 1 e.line e.text).mp he
  exact not_hash_mem_stripLine raw (hstrip ▸ mem_of_mem_tokens htok h)

/-- Settles O4: numbering keeps the lines that are not blank once stripped, and stripping is said in raw characters. -/
theorem preprocessKeepsInstructionLines : Obligations.PreprocessKeepsInstructionLines := by
  refine fun text => ⟨fun line t => ?_, numberLines_rising 1 _ le_rfl,
    fun e he tok htok => not_hash_mem_token_of_mem_preprocess he htok⟩
  rw [preprocess, mem_numberLines_iff]
  constructor
  · rintro ⟨n, raw, hline, hraw, hstrip⟩
    obtain ⟨kept, rest, before, after, h⟩ := (stripLine_eq_iff raw t).mp hstrip
    exact ⟨n, raw, kept, rest, before, after, hline, hraw, h⟩
  · rintro ⟨n, raw, kept, rest, before, after, hline, hraw, h⟩
    exact ⟨n, raw, hline, hraw, (stripLine_eq_iff raw t).mpr ⟨kept, rest, before, after, h⟩⟩

/-! ### The decoder's checks (R74, R77, R80) -/

@[simp] theorem opcodeOf?_mnemonic (o : Opcode) : opcodeOf? o.mnemonic = some o := by
  cases o <;> rfl

/-- Once the first token is a mnemonic, the operands decide. -/
theorem decode_of_tokens {text : Text} {o : Opcode} {args : List Text} (h : tokens text = o.mnemonic :: args) :
    decode text = decodeOperands o args := by
  simp [decode, h]

theorem decodeOperands_of_length_ne {o : Opcode} {args : List Text} (h : args.length ≠ o.format.arity) :
    decodeOperands o args = .error .wrongOperandCount := if_neg h

theorem decodeOperands_of_literals {o : Opcode} {args : List Text} {vs : List Int}
    (hlen : args.length = o.format.arity) (hvs : intLiterals? args = some vs) :
    decodeOperands o args =
      if o.format.takesIndex && !indexValueInRange (vs.headD 0) then .error .indexOutOfRange else buildInstr o vs := by
  simp [decodeOperands, hlen, hvs]

theorem intLiterals?_cons {a : Text} {as : List Text} {v : Int} {vs : List Int} (ha : intLiteral? a = some v)
    (has : intLiterals? as = some vs) : intLiterals? (a :: as) = some (v :: vs) := by
  simp [intLiterals?, ha, has]

theorem length_of_intLiterals? {as : List Text} {vs : List Int} (h : intLiterals? as = some vs) :
    vs.length = as.length := by
  induction as generalizing vs with
  | nil => cases h; rfl
  | cons a as ih =>
    unfold intLiterals? at h
    split at h
    · cases h
      exact congrArg (· + 1) (ih ‹_›)
    · cases h

/-- With as many operand values as the opcode's arity there is an instruction. -/
theorem exists_buildInstr_eq_ok {o : Opcode} {vs : List Int} (h : vs.length = o.format.arity) :
    ∃ i, buildInstr o vs = .ok i := by
  cases o with
  | selectAdd | selectSubtract | selectMultiply | selectDivide =>
    obtain rfl := List.length_eq_zero_iff.mp h
    exact ⟨_, rfl⟩
  | setVariable =>
    obtain ⟨k, n, rfl⟩ := List.length_eq_two.mp h
    exact ⟨_, rfl⟩
  | load | loadPrimed | store | storePrimed | print
  | jumpForward | jumpBackward | jumpForwardIfRunup | jumpBackwardIfRunup =>
    obtain ⟨k, rfl⟩ := List.length_eq_one_iff.mp h
    exact ⟨_, rfl⟩

/-- R77: for an opcode that takes an index, with as many integer literals as its arity, only the range is left to check. -/
theorem decodeOperands_ok_iff_of_takesIndex {o : Opcode} {args : List Text} {k : Int} {vs : List Int}
    (hindex : o.format.takesIndex = true) (hlen : args.length = o.format.arity)
    (hvs : intLiterals? args = some (k :: vs)) : (∃ i, decodeOperands o args = .ok i) ↔ 0 ≤ k ∧ k ≤ 9 := by
  rw [decodeOperands_of_literals hlen hvs, hindex]
  by_cases hk : 0 ≤ k ∧ k ≤ 9
  · have hbuild := exists_buildInstr_eq_ok ((length_of_intLiterals? hvs).trans hlen)
    simpa [indexValueInRange, hk] using hbuild
  · simp [indexValueInRange, hk]

/-- The first tokens R77 names, with their operand counts, are mnemonics of opcodes that take an index. -/
theorem exists_opcode_of_index_mnemonic {op : Text} {rest : List Text}
    (h : op = ['N'] ∧ rest.length = 1 ∨
      (op = ['L'] ∨ op = ['L', '\''] ∨ op = ['S'] ∨ op = ['S', '\''] ∨ op = ['P']) ∧ rest = []) :
    ∃ o : Opcode, o.mnemonic = op ∧ o.format.takesIndex = true ∧ rest.length + 1 = o.format.arity := by
  rcases h with ⟨rfl, hrest⟩ | ⟨rfl | rfl | rfl | rfl | rfl, rfl⟩
  · exact ⟨.setVariable, rfl, rfl, congrArg (· + 1) hrest⟩
  · exact ⟨.load, rfl, rfl, rfl⟩
  · exact ⟨.loadPrimed, rfl, rfl, rfl⟩
  · exact ⟨.store, rfl, rfl, rfl⟩
  · exact ⟨.storePrimed, rfl, rfl, rfl⟩
  · exact ⟨.print, rfl, rfl, rfl⟩

/-- Settles O9: for an opcode that takes an index the range is the last check. -/
theorem variableIndexMustBeInRange : Obligations.VariableIndexMustBeInRange := by
  intro text op a rest k vs htok ha hrest hop
  obtain ⟨o, rfl, hindex, hlen⟩ := exists_opcode_of_index_mnemonic hop
  rw [decode_of_tokens htok]
  exact decodeOperands_ok_iff_of_takesIndex hindex hlen (intLiterals?_cons ha hrest)

/-- Settles O8: the operand count is checked first after the opcode, against the arity of its format. -/
theorem operandCountMustEqualArity : Obligations.OperandCountMustEqualArity := by
  rintro text op args o htok rfl hne
  rw [decode_of_tokens htok]
  refine decodeOperands_of_length_ne fun hlen => hne (hlen.trans ?_)
  cases o <;> rfl

end Sys2Proof
end

section
/-! PROOFS. What the evaluation leaves (R130 to R135) and what a completed instruction retires (R156, R157), each said once
for every mode and every instruction; then the mode-select instructions (40_mode_select.md). -/

namespace Sys2Proof

/-! ### Lines of format T0 (R75, R80) -/

/-- The lines of an opcode of format T0: only the operand count is left to check. -/
theorem decodesT0_of_format {o : Opcode} {i : Instr} (hformat : o.format = .t0) (hbuild : buildInstr o [] = .ok i) :
    DecodesT0 o.mnemonic i := by
  intro text args htok
  rw [decode_of_tokens htok]
  cases args with
  | nil =>
    rw [decodeOperands_of_literals (by rw [hformat]; rfl) rfl, hbuild]
    simp [hformat, Format.takesIndex]
  | cons a as => exact decodeOperands_of_length_ne (by simp [hformat, Format.arity])

/-- R74: a first token that is no mnemonic, character for character, is an unknown opcode. -/
theorem decode_of_ne_mnemonic {text op : Text} {args : List Text} (htok : tokens text = op :: args)
    (hop : ∀ o : Opcode, o.mnemonic ≠ op) : decode text = .error .unknownOpcode := by
  have hnone : opcodeOf? op = none := List.find?_eq_none.mpr fun o _ => by simpa using hop o
  simp [decode, htok, hnone]

namespace Machine

/-! ### What the evaluation leaves (R130 to R137) -/

/-- R130 to R135: the evaluation leaves the egress values and the runup latch of its mode. -/
theorem evaluatedFrom_evaluate (s : State) : EvaluatedFrom s s.runup (evaluate s) := by
  have he := evaluate_e s
  have hep := evaluate_ep s
  have hrunup : (evaluate s).runup = true ↔ s.runup = true ∨ evalTrips s = true := by simp
  rw [evalTrips_iff] at hrunup
  rw [EvaluatedFrom, evaluate_mode, evaluate_i1, evaluate_i2, evaluate_ip]
  cases hmode : s.mode <;> rw [hmode] at he hep hrunup
  case unset => exact ⟨he, hep, Bool.eq_iff_iff.mpr (hrunup.trans (or_iff_left id))⟩
  case add => exact ⟨he, hep, hrunup⟩
  case subtract => exact ⟨he, hep, hrunup⟩
  case multiply =>
    rw [he, hep]
    obtain ⟨hlaw, -, -⟩ := fdiv_fmod_laws (s.i1 * s.i2) radix (by decide)
    exact ⟨hlaw, Int.fmod_nonneg_of_pos _ (by decide), Int.le_of_lt_add_one (Int.fmod_lt_of_pos _ (by decide)),
      Bool.eq_iff_iff.mpr (hrunup.trans (or_iff_left id))⟩
  case divide =>
    by_cases h0 : s.i2 = 0
    · simp only [if_pos h0] at he hep ⊢
      exact ⟨he, hep, hrunup.mpr (.inr (.inl h0))⟩
    · simp only [if_neg h0] at he hep ⊢
      rw [he, hep]
      obtain ⟨hlaw, hlt, hsign⟩ := fdiv_fmod_laws s.dividend s.i2 h0
      exact ⟨hlaw, hlt, hsign, hrunup.trans (or_congr_right (or_iff_right h0))⟩

/-- R139: the change entries of the evaluation can be read off what it leaves. -/
theorem aluEntries_evaluate (s : State) : aluEntries (evaluate s) = evalWrites s := by
  rw [aluEntries, evaluate_mode, evaluate_e, evaluate_ep, evaluate_i2]
  cases hmode : s.mode <;> simp only [evalWrites, hmode]
  case divide => by_cases h0 : s.i2 = 0 <;> simp [h0]

/-! ### What a completed instruction leaves (R154 to R157) -/

/-- What is said of an evaluation is said of its registers, mode and runup latch alone. -/
theorem evaluatedFrom_congr {s t t' : State} {runup : Bool} (hx : t'.x = t.x) (hmode : t'.mode = t.mode)
    (hrunup : t'.runup = t.runup) (h : EvaluatedFrom s runup t) : EvaluatedFrom s runup t' := by
  cases t; cases t'
  cases hx; cases hmode; cases hrunup
  exact h

theorem aluEntries_congr {t t' : State} (hx : t'.x = t.x) (hmode : t'.mode = t.mode) : aluEntries t' = aluEntries t := by
  cases t; cases t'
  cases hx; cases hmode
  rfl

/-- The evaluation of a completed step is that of the state its instruction proper left. -/
theorem finishStep_evaluatedFrom (e : Entry) (f : Effect) : EvaluatedFrom f.state f.state.runup (finishStep e f) := by
  obtain ⟨hx, hmode, hrunup, -⟩ := finishStep_fields e f
  exact evaluatedFrom_congr hx (hmode.trans (evaluate_mode _).symm) hrunup (evaluatedFrom_evaluate f.state)

/-- Behind its instruction proper a completed step writes no slot but E and EP. -/
theorem finishStep_sameOutside (e : Entry) (f : Effect) : SameOutside [slotE, slotEP] f.state (finishStep e f) := by
  intro i hi
  obtain ⟨hx, -⟩ := finishStep_fields e f
  obtain ⟨hE, hEP⟩ : i ≠ slotE ∧ i ≠ slotEP := by simpa using hi
  exact (State.read_congr hx i).trans (evaluate_read_of_ne f.state hE hEP)

/-- R156, R157: an instruction whose proper completes retires, with the writes of its proper. -/
theorem exec_retires {i : Instr} {s : State} {e : Entry} {f : Effect} (he : s.currentEntry = some e)
    (hp : properOf i s = .ok f) : exec i s = .next (finishStep e f) ∧ Retires e f.changes s (finishStep e f) := by
  refine ⟨by rw [exec_eq_execute, hp, execute_ok f he], ?_⟩
  obtain ⟨ksteps, ktrace, kstatus, kprog, kmax, kalu, kdraw, -⟩ := properOf_keeps hp
  obtain ⟨hx, hmode, hrunup, -, hsteps, -, htrace, hstatus, hprog, hmax, halu, hdraw⟩ := finishStep_fields e f
  have hentries : aluEntries (finishStep e f) = evalWrites f.state :=
    (aluEntries_congr hx (hmode.trans (evaluate_mode _).symm)).trans (aluEntries_evaluate f.state)
  refine ⟨by rw [hsteps, ksteps], ?_, hstatus.trans kstatus, hprog.trans kprog, hmax.trans kmax, halu.trans kalu,
    hdraw.trans kdraw⟩
  rw [htrace, ktrace, ksteps, hmode, hrunup, hx, hentries, stepChanges, kalu]

/-! ### Mode-select instructions (40_mode_select.md) -/

/-- R100 to R104: a mode-select completes with its mode latched and runup cleared, then evaluated in that mode. -/
theorem exec_selectMode {i : Instr} {m : Mode} {s : State} {e : Entry} (he : s.currentEntry = some e)
    (hp : properOf i s = .ok (selectMode m s)) :
    ∃ t, exec i s = .next t ∧ t.mode = m ∧ EvaluatedFrom s false t ∧ SameOutside [slotE, slotEP] s t ∧
      t.pc = s.pc + 1 ∧ t.out = s.out ∧ Retires e [] s t := by
  obtain ⟨hexec, hretires⟩ := exec_retires he hp
  obtain ⟨-, hmode, -, hpc, -, hout, -⟩ := finishStep_fields e (selectMode m s)
  exact ⟨_, hexec, hmode, finishStep_evaluatedFrom e _, finishStep_sameOutside e _, hpc, hout, hretires⟩

/-- The frame of an evaluation that keeps EP. -/
theorem SameOutside.of_ep_eq {s t : State} (h : SameOutside [slotE, slotEP] s t) (hep : t.ep = s.ep) :
    SameOutside [slotE] s t := by
  intro i hi
  by_cases hEP : i = slotEP
  · exact hEP ▸ hep
  · exact h i (by simpa [hEP] using hi)

/-- An evaluation leaves the ingress values it reads. -/
theorem SameOutside.ingress {s t : State} (h : SameOutside [slotE, slotEP] s t) :
    t.ip = s.ip ∧ t.i1 = s.i1 ∧ t.i2 = s.i2 :=
  ⟨h slotIP (by decide), h slotI1 (by decide), h slotI2 (by decide)⟩

/-- A mode-select whose evaluation keeps EP writes no slot but E. What the evaluation says of the ingress values of the
new state it says of those of the old one, since a mode-select writes none of them. -/
theorem exec_selectMode_of_keeps_ep {i : Instr} {m : Mode} {s : State} {e : Entry} {v : Int} {P : Prop}
    (he : s.currentEntry = some e) (hp : properOf i s = .ok (selectMode m s))
    (heval : ∀ t : State, t.mode = m → t.i1 = s.i1 → t.i2 = s.i2 → EvaluatedFrom s false t →
      t.e = v ∧ t.ep = s.ep ∧ (t.runup = true ↔ false = true ∨ P)) :
    ∃ t, exec i s = .next t ∧ t.mode = m ∧ t.e = v ∧ (t.runup = true ↔ P) ∧ SameOutside [slotE] s t ∧
      t.pc = s.pc + 1 ∧ t.out = s.out ∧ Retires e [] s t := by
  obtain ⟨t, hexec, hmode, hevaluated, hframe, hpc, hout, hretires⟩ := exec_selectMode he hp
  obtain ⟨-, hi1, hi2⟩ := hframe.ingress
  obtain ⟨hE, hEP, hrunup⟩ := heval t hmode hi1 hi2 hevaluated
  exact ⟨t, hexec, hmode, hE, hrunup.trans (or_iff_right Bool.false_ne_true), hframe.of_ep_eq hEP, hpc, hout, hretires⟩

/-- Settles O16: the evaluation in Add mode, from a runup latch just cleared. -/
theorem selectAddResult : Obligations.SelectAddResult := by
  refine ⟨decodesT0_of_format (o := .selectAdd) rfl rfl, fun s e he => ?_⟩
  refine exec_selectMode_of_keeps_ep he rfl fun t hmode hi1 hi2 heval => ?_
  rwa [EvaluatedFrom, hmode, hi1, hi2] at heval

/-- Settles O17: the evaluation in Subtract mode, from a runup latch just cleared. A token longer than `-` is no mnemonic,
since the mnemonics of two characters begin with `L`, `S` or `?`. -/
theorem selectSubtractResult : Obligations.SelectSubtractResult := by
  refine ⟨decodesT0_of_format (o := .selectSubtract) rfl rfl, fun text c cs args htok => ?_, fun s e he => ?_⟩
  · exact decode_of_ne_mnemonic htok fun o => by cases o <;> simp [Opcode.mnemonic]
  · refine exec_selectMode_of_keeps_ep he rfl fun t hmode hi1 hi2 heval => ?_
    rwa [EvaluatedFrom, hmode, hi1, hi2] at heval

end Machine
end Sys2Proof
end

section
/-! PROOFS. The evaluation's rules (43_arithmetic_effect.md): what every evaluation leaves unwritten and which of them do
not read IP, then the Add and the Subtract evaluation; and the runup latch, which no instruction proper but a mode-select's
writes. -/

namespace Sys2Proof.Machine

/-! ### What every evaluation leaves alone (R130) -/

theorem evaluate_sameOutside (s : State) : SameOutside [slotE, slotEP] s (evaluate s) := by
  intro i hi
  obtain ⟨hE, hEP⟩ : i ≠ slotE ∧ i ≠ slotEP := by simpa using hi
  exact evaluate_read_of_ne s hE hEP

/-- The evaluation writes no field but the register file and the runup latch. -/
theorem evaluate_eq (s : State) : evaluate s = { s with x := (evaluate s).x, runup := (evaluate s).runup } := by
  rw [State.mk.injEq]
  simp

/-- R132 to R134: only the Divide evaluation reads IP. -/
theorem evaluate_write_slotIP {s : State} (hmode : s.mode ≠ .divide) (v : Int) :
    (evaluate (s.write slotIP v)).e = (evaluate s).e ∧
    (evaluate (s.write slotIP v)).runup = (evaluate s).runup := by
  have hi1 : (s.write slotIP v).i1 = s.i1 := State.read_write_of_ne s v slotIP_ne_slotI1
  have hi2 : (s.write slotIP v).i2 = s.i2 := State.read_write_of_ne s v slotIP_ne_slotI2
  have he : (s.write slotIP v).e = s.e := State.read_write_of_ne s v slotIP_ne_slotE
  rw [evaluate_e, evaluate_e, evaluate_runup, evaluate_runup, evalTrips, evalTrips, State.write_mode, State.write_runup,
    hi1, hi2, he]
  cases hm : s.mode with
  | divide => exact absurd hm hmode
  | unset | add | subtract | multiply => exact ⟨rfl, rfl⟩

/-! ### The Add and the Subtract evaluation (R132, R133) -/

/-- An evaluation that keeps EP and does not divide writes E and runup only, and does not read IP. -/
theorem evaluate_of_keeps_ep {s : State} {v : Int} {P : Prop} (hmode : s.mode ≠ .divide)
    (heval : (evaluate s).e = v ∧ (evaluate s).ep = s.ep ∧ ((evaluate s).runup = true ↔ P)) :
    (evaluate s).e = v ∧ ((evaluate s).runup = true ↔ P) ∧ SameOutside [slotE] s (evaluate s) ∧
    evaluate s = { s with x := (evaluate s).x, runup := (evaluate s).runup } ∧
    ∀ v, (evaluate (s.write slotIP v)).e = (evaluate s).e ∧
      (evaluate (s.write slotIP v)).runup = (evaluate s).runup := by
  obtain ⟨he, hep, hrunup⟩ := heval
  exact ⟨he, hrunup, (evaluate_sameOutside s).of_ep_eq hep, evaluate_eq s, evaluate_write_slotIP hmode⟩

/-- Settles O33: the Add case of what the evaluation leaves, and the frame of an evaluation that keeps EP. -/
theorem evaluateAdd : Obligations.EvaluateAdd := by
  intro s hmode
  have heval := evaluatedFrom_evaluate s
  rw [EvaluatedFrom, evaluate_mode, hmode, evaluate_i1, evaluate_i2] at heval
  exact evaluate_of_keeps_ep (by simp [hmode]) heval

/-- Settles O34: the Subtract case of what the evaluation leaves, and the frame of an evaluation that keeps EP. -/
theorem evaluateSubtract : Obligations.EvaluateSubtract := by
  intro s hmode
  have heval := evaluatedFrom_evaluate s
  rw [EvaluatedFrom, evaluate_mode, hmode, evaluate_i1, evaluate_i2] at heval
  exact evaluate_of_keeps_ep (by simp [hmode]) heval

/-! ### The runup latch (R136) -/

theorem evaluate_runup_of_set {s : State} (h : s.runup = true) : (evaluate s).runup = true := by
  rw [evaluate_runup, h, Bool.true_or]

/-- A variable's instruction proper that completes ran on the slot of a variable. -/
theorem withVariable_ok {k : Nat} {p : Slot → Except ErrorKind Effect} {f : Effect} (h : withVariable k p = .ok f) :
    ∃ j : Fin 10, p (varSlot j) = .ok f := by
  rcases withVariable_cases k p with ⟨j, -, hj⟩ | ⟨-, herr⟩
  · exact ⟨j, hj.symm.trans h⟩
  · cases herr.symm.trans h

/-- A load's instruction proper that completes is that of the load with its mode check passed. -/
theorem requireMode_ok {s : State} {p : Except ErrorKind Effect} {f : Effect} (h : requireMode s p = .ok f) :
    p = .ok f := by
  rcases requireMode_cases s p with ⟨-, hp⟩ | ⟨-, herr⟩
  · exact hp.symm.trans h
  · cases herr.symm.trans h

/-- An instruction proper writes runup in a mode-select only. -/
theorem properOf_runup {i : Instr} {s : State} {f : Effect} (hi : ¬i.isModeSelect) (h : properOf i s = .ok f) :
    f.state.runup = s.runup := by
  cases i with
  | selectAdd | selectSubtract | selectMultiply | selectDivide => exact absurd (by simp [Instr.isModeSelect]) hi
  | setVariable k n | store k | storePrimed k | print k =>
    obtain ⟨j, hj⟩ := withVariable_ok h
    cases hj
    rfl
  | load k | loadPrimed k =>
    obtain ⟨j, hj⟩ := withVariable_ok h
    cases requireMode_ok hj
    rfl
  | jumpForward n | jumpBackward n =>
    cases h
    rfl
  | jumpForwardIfRunup n | jumpBackwardIfRunup n =>
    cases h
    split <;> rfl

/-- R136: between mode-selects runup is monotone: a set latch stays set, through an error too (R175). -/
theorem exec_runup_of_set {i : Instr} {s t : State} (hi : ¬i.isModeSelect) (h : exec i s = .next t)
    (hset : s.runup = true) : t.runup = true := by
  rcases exec_cases h with ⟨e, f, -, hp, rfl⟩ | ⟨e, kind, -, -, rfl⟩ | ⟨-, rfl⟩
  · obtain ⟨-, -, hrunup, -⟩ := finishStep_fields e f
    rw [hrunup, properOf_runup hi hp, hset, Bool.true_or]
  · exact hset
  · exact hset

/-- R100 to R104: a mode-select's proper is the latching of its mode, from any state. -/
theorem properOf_modeSelect {i : Instr} (hi : i.isModeSelect) : ∃ m, ∀ s, properOf i s = .ok (selectMode m s) := by
  rcases hi with rfl | rfl | rfl | rfl <;> exact ⟨_, fun _ => rfl⟩

/-- A mode-select overwrites runup before anything reads it. -/
theorem exec_modeSelect_setRunup {i : Instr} {s : State} {e : Entry} (b : Bool) (hi : i.isModeSelect)
    (he : s.currentEntry = some e) : exec i { s with runup := b } = exec i s := by
  obtain ⟨m, hm⟩ := properOf_modeSelect hi
  have he' : ({ s with runup := b } : State).currentEntry = some e := he
  calc exec i { s with runup := b }
      = .next (finishStep e (selectMode m { s with runup := b })) := by rw [exec_eq_execute, hm, execute_ok _ he']
    _ = .next (finishStep e (selectMode m s)) := rfl
    _ = exec i s := by rw [exec_eq_execute, hm, execute_ok _ he]

/-- Settles O38: the evaluation and every other instruction keep a set latch, and a mode-select overwrites it. -/
theorem runupClearedOnlyByModeSelect : Obligations.RunupClearedOnlyByModeSelect := by
  refine ⟨fun s => evaluate_runup_of_set, fun i s t h hset hclear => ?_,
    fun i s e b hi he => exec_modeSelect_setRunup b hi he⟩
  by_contra hi
  exact Bool.false_ne_true (hclear.symm.trans (exec_runup_of_set hi h hset))

end Sys2Proof.Machine
end

section
/-! PROOFS. The sequencer (44_sequencer.md): what a completed instruction leaves in `pc`; what a step of a running machine
is, and with it the end of every run; and what a run that is over answers. -/

namespace Sys2Proof.Machine

/-! ### The program counter (R155) -/

/-- R77, R172: a well-formed instruction proper fails in a load before any mode-select only. -/
theorem exists_properOf_ok {i : Instr} {s : State} (hwf : i.wellFormed = true) (hload : ¬(i.isLoad ∧ s.mode = .unset)) :
    ∃ f, properOf i s = .ok f := by
  cases hp : properOf i s with
  | ok f => exact ⟨f, rfl⟩
  | error kind =>
    rcases properOf_error hp with ⟨-, hunset⟩ | ⟨-, hill⟩
    · exact absurd hunset hload
    · exact absurd (hill.symm.trans hwf) Bool.false_ne_true

/-- Settles O32: the instruction completes, and whether its proper took a jump decides the `pc` of the step. -/
theorem programCounterAdvance : Obligations.ProgramCounterAdvance := by
  intro i s e hwf he hload
  obtain ⟨f, hp⟩ := exists_properOf_ok hwf hload
  obtain ⟨hexec, -⟩ := exec_retires he hp
  obtain ⟨-, -, -, hpc, -⟩ := finishStep_fields e f
  refine ⟨_, hexec, hpc.trans ?_⟩
  cases i with
  | selectAdd | selectSubtract | selectMultiply | selectDivide =>
    cases hp
    rfl
  | setVariable k n | store k | storePrimed k | print k =>
    obtain ⟨j, hj⟩ := withVariable_ok hp
    cases hj
    rfl
  | load k | loadPrimed k =>
    obtain ⟨j, hj⟩ := withVariable_ok hp
    cases requireMode_ok hj
    rfl
  | jumpForward n | jumpBackward n =>
    cases hp
    rfl
  | jumpForwardIfRunup n | jumpBackwardIfRunup n =>
    cases hp
    cases s.runup <;> rfl

/-! ### A step of a running machine (R151 to R160) -/

theorem loopTest_eq_true_iff (s : State) : s.loopTest = true ↔ s.pc < s.prog.length ∧ s.steps < s.maxSteps :=
  decide_eq_true_iff

theorem step_of_loopTest_false {s : State} (hrun : s.status = .running) (htest : s.loopTest = false) :
    step s = .next s.endRun := by
  simp [step, hrun, htest]

theorem step_of_fetchDecode_ok {s : State} {i : Instr} (hrun : s.status = .running) (htest : s.loopTest = true)
    (hfetch : fetchDecode s = .ok i) : step s = exec i s := by
  simp [step, hrun, htest, hfetch]

theorem step_of_fetchDecode_error {s : State} {kind : ErrorKind} {line : Nat} (hrun : s.status = .running)
    (htest : s.loopTest = true) (hfetch : fetchDecode s = .error (kind, line)) : step s = .next (s.raise kind line) := by
  simp [step, hrun, htest, hfetch]

/-- Every instruction has a next state, the error it takes included. -/
theorem exists_exec_eq_next (i : Instr) (s : State) : ∃ t, exec i s = .next t := by
  rw [exec_eq_execute]
  rcases execute_cases s (properOf i s) with ⟨_, _, -, -, h⟩ | ⟨_, _, -, -, h⟩ | ⟨-, h⟩ <;> exact ⟨_, h⟩

/-- R163: from Running a step is defined. -/
theorem exists_step_eq_next {s : State} (hrun : s.status = .running) : ∃ t, step s = .next t := by
  cases htest : s.loopTest with
  | false => exact ⟨_, step_of_loopTest_false hrun htest⟩
  | true =>
    cases hfetch : fetchDecode s with
    | ok i => exact step_of_fetchDecode_ok hrun htest hfetch ▸ exists_exec_eq_next i s
    | error fault => exact ⟨_, step_of_fetchDecode_error hrun htest hfetch⟩

/-- R158, R159: the end test ends the run, and writes nothing but the status. -/
theorem endRun_changes_status_only (s : State) :
    s.endRun.status ≠ .running ∧ s.endRun = { s with status := s.endRun.status } := by
  unfold State.endRun
  split <;> exact ⟨nofun, rfl⟩

/-- R154 to R160: an instruction takes an error, which writes nothing but the status, or retires. -/
theorem exec_raises_or_retires {i : Instr} {s t : State} (h : exec i s = .next t) :
    (∃ kind line, t = s.raise kind line) ∨ ∃ e changes, s.currentEntry = some e ∧ Retires e changes s t := by
  rcases exec_cases h with ⟨e, f, he, hp, rfl⟩ | ⟨e, kind, -, -, ht⟩ | ⟨-, ht⟩
  · obtain ⟨-, hretires⟩ := exec_retires he hp
    exact .inr ⟨e, _, he, hretires⟩
  · exact .inl ⟨_, _, ht⟩
  · exact .inl ⟨_, _, ht⟩

/-- A step ends the run and writes nothing but the status, or it retires one instruction within the budget. -/
theorem step_ends_or_retires {s t : State} (h : step s = .next t) :
    (t.status ≠ .running ∧ t = { s with status := t.status }) ∨
    (s.loopTest = true ∧ t.status = .running ∧ ∃ e changes, s.currentEntry = some e ∧ Retires e changes s t) := by
  obtain ⟨hrun, ⟨-, rfl⟩ | ⟨-, -, rfl⟩ | ⟨e, c, -, -, -, rfl⟩ | ⟨e, i, htest, -, -, hexec⟩⟩ := step_cases h
  · exact .inl (endRun_changes_status_only s)
  · exact .inl ⟨nofun, rfl⟩
  · exact .inl ⟨nofun, rfl⟩
  · rcases exec_raises_or_retires hexec with ⟨kind, line, rfl⟩ | ⟨e, changes, he, hretires⟩
    · exact .inl ⟨nofun, rfl⟩
    · have ⟨_, _, hstatus, _⟩ := hretires
      exact .inr ⟨htest, hstatus.trans hrun, e, changes, he, hretires⟩

/-! ### The end of every run (R163) -/

/-- Each step that does not end the run uses one of the steps left in the budget. -/
theorem exists_run_eq_ended {s : State} (hrun : s.status = .running) :
    ∃ (k : Nat) (t : State), k ≤ s.maxSteps - s.steps + 1 ∧ core.run k s = .next t ∧ t.status ≠ .running ∧
      t.steps ≤ max s.steps s.maxSteps := by
  obtain ⟨t, hstep⟩ := exists_step_eq_next hrun
  have hone (k : Nat) : core.run (k + 1) s = core.run k t := core_run_succ k hstep
  rcases step_ends_or_retires hstep with ⟨hended, hframe⟩ | ⟨htest, htrun, e, changes, -, hretires⟩
  · have hsteps : t.steps = s.steps := (congrArg State.steps hframe :)
    exact ⟨1, t, by omega, hone 0, hended, by omega⟩
  · obtain ⟨hsteps, -, -, -, hmax, -⟩ := hretires
    obtain ⟨-, hbudget⟩ := (loopTest_eq_true_iff s).mp htest
    obtain ⟨k, u, hk, hrest, hended, hcount⟩ := exists_run_eq_ended htrun
    exact ⟨k + 1, u, by omega, (hone k).trans hrest, hended, by omega⟩
termination_by s.maxSteps - s.steps
decreasing_by omega

/-- Settles O57, by recursion on the steps left in the budget. -/
theorem runEndsWithinBudget : Obligations.RunEndsWithinBudget :=
  fun _ => exists_run_eq_ended

/-! ### What a run that is over answers (R158, R161, R162) -/

theorem result_of_done {s : State} (h : s.status = .done) :
    s.result = some (.success { trace := s.trace, out := s.out, registers := s.x }) := by
  simp [State.result, h]

theorem result_of_error {s : State} {kind : ErrorKind} {line : Nat} (h : s.status = .error kind line) :
    s.result =
      some (.failure { kind := kind, line := line, message := Config.errorMessage s.draw kind line s.prog }) := by
  simp [State.result, h]

/-- R158: at or past the program's end the loop test fails and the end test completes the run. -/
theorem step_of_pc_past_end {s : State} (hrun : s.status = .running) (hpc : (s.prog.length : Int) ≤ s.pc) :
    step s = .next { s with status := .done } := by
  have htest : s.loopTest = false := by
    rw [← Bool.not_eq_true, loopTest_eq_true_iff]
    omega
  rw [step_of_loopTest_false hrun htest, State.endRun, if_neg (by omega)]

/-- R163: a run that completed stays where it is. -/
theorem runFor_of_done {s : State} (h : s.status = .done) (n : Nat) : s.runFor n = s := by
  cases n with
  | zero => rfl
  | succ n => simp [State.runFor, step, h]

/-- The run of a program text without instructions is one end test from the reset registers. -/
theorem runProgram_of_empty {text : Text} (maxSteps : Nat) (alu : Bool) (draw : Nat) (h : preprocess text = []) :
    runProgram text maxSteps alu draw =
      some (.success { trace := [], out := [], registers := Vector.replicate 15 0 }) := by
  have hprog : (State.start text maxSteps alu draw).prog = [] := h
  have hstep : step (State.start text maxSteps alu draw) =
      .next { State.start text maxSteps alu draw with status := .done } :=
    step_of_pc_past_end rfl (by rw [hprog]; rfl)
  rw [runProgram, runFor_succ maxSteps hstep, runFor_of_done rfl, result_of_done rfl]
  rfl

/-- Settles O48: the end test past the program's end, and the run that consists of it alone. -/
theorem normalCompletion : Obligations.NormalCompletion :=
  ⟨fun _ hrun hpc => ⟨step_of_pc_past_end hrun hpc, result_of_done rfl⟩,
    fun _ maxSteps alu draw h => runProgram_of_empty maxSteps alu draw h⟩

/-- Settles O52: the result of status Done, and what coherence says of the trace. -/
theorem successResultIsTriple : Obligations.SuccessResultIsTriple := by
  rintro s ⟨⟨hlength, -, -, hlast, hempty⟩, -⟩ hdone
  refine ⟨result_of_done hdone, hlength, fun r hr => ?_, fun htrace => ?_⟩
  · obtain ⟨hregs, hmode, hrunup⟩ := hlast r hr
    exact ⟨hregs.symm, hmode.symm, hrunup.symm⟩
  · obtain ⟨hx, -⟩ := hempty htrace
    exact hx

/-- Settles O53: the error record is made of the status, the program and the draw. -/
theorem errorDiscardsPartialResult : Obligations.ErrorDiscardsPartialResult := by
  intro s kind line herror
  refine ⟨⟨_, result_of_error herror⟩, fun s' hstatus hprog hdraw => ?_⟩
  rw [result_of_error herror, result_of_error (hstatus.trans herror), hprog, hdraw]

end Sys2Proof.Machine
end

section
/-! PROOFS. The errors (60_exceptions.md): the one error an instruction itself can raise, and what a step that ends the run
leaves (R175). -/

namespace Sys2Proof.Machine

/-! ### InvalidState (R172) -/

/-- R111, R112: over an index in range, an instruction proper that needs a mode is InvalidState before any mode-select. -/
theorem withVariable_requireMode_of_unset {k : Nat} {s : State} (hk : indexInRange k = true) (hunset : s.mode = .unset)
    (p : Slot → Except ErrorKind Effect) : (withVariable k fun v => requireMode s (p v)) = .error .invalidState := by
  rcases withVariable_cases k fun v => requireMode s (p v) with ⟨j, -, hj⟩ | ⟨hlt, -⟩
  · exact hj.trans (if_pos hunset)
  · exact absurd (of_decide_eq_true hk) (by omega)

/-- R111, R112: the two loads are the instructions that need a mode. -/
theorem properOf_load_of_unset {i : Instr} {s : State} (hwf : i.wellFormed = true) (hload : i.isLoad)
    (hunset : s.mode = .unset) : properOf i s = .error .invalidState := by
  obtain ⟨k, rfl | rfl⟩ := hload
  · exact withVariable_requireMode_of_unset hwf hunset _
  · exact withVariable_requireMode_of_unset hwf hunset _

/-- R172: before any mode-select a well-formed load fails at its own line. -/
theorem exec_load_of_unset {i : Instr} {s : State} {e : Entry} (hwf : i.wellFormed = true) (hload : i.isLoad)
    (hunset : s.mode = .unset) (he : s.currentEntry = some e) :
    exec i s = .next (s.raise .invalidState e.line) := by
  rw [exec_eq_execute, properOf_load_of_unset hwf hload hunset, execute_error _ he]

/-- R154 to R156, R172: every other well-formed instruction retires. -/
theorem exists_exec_retires {i : Instr} {s : State} {e : Entry} (hwf : i.wellFormed = true)
    (hload : ¬(i.isLoad ∧ s.mode = .unset)) (he : s.currentEntry = some e) :
    ∃ t changes, exec i s = .next t ∧ Retires e changes s t := by
  obtain ⟨f, hp⟩ := exists_properOf_ok hwf hload
  exact ⟨_, _, exec_retires he hp⟩

/-- An error is not a completion: it leaves the step uncounted (R175), and a retired instruction is counted (R156). -/
theorem not_retires_raise {e : Entry} {changes : List Change} {s : State} {kind : ErrorKind} {line : Nat} :
    ¬Retires e changes s (s.raise kind line) := by
  rintro ⟨hsteps, -⟩
  exact absurd hsteps (Nat.ne_of_lt s.steps.lt_succ_self)

/-- Settles O23: a load before any mode-select raises, everything else retires, and no step does both. -/
theorem onlyLoadsNeedMode : Obligations.OnlyLoadsNeedMode := by
  intro i s e hwf he
  refine ⟨⟨fun ⟨hload, hunset⟩ => exec_load_of_unset hwf hload hunset he, fun herror => ?_⟩, fun hload => ?_⟩
  · by_contra hload
    obtain ⟨t, changes, hexec, hretires⟩ := exists_exec_retires hwf hload he
    cases herror.symm.trans hexec
    exact not_retires_raise hretires
  · obtain ⟨t, _, hexec, hsteps, -, hstatus, -⟩ := exists_exec_retires hwf hload he
    exact ⟨t, hexec, hstatus, hsteps⟩

/-! ### Errors are precise (R175) -/

/-- Settles O46: a step that does not end the run leaves it running. -/
theorem endingStepChangesOnlyStatus : Obligations.EndingStepChangesOnlyStatus := by
  intro s t hstep hended
  rcases step_ends_or_retires hstep with ⟨-, hframe⟩ | ⟨-, hrunning, -⟩
  · exact hframe
  · exact absurd hrunning hended

end Sys2Proof.Machine
end

section
/-! PROOFS. From program text to instructions and back (30_encoding.md): what splitting at newlines keeps, which tokens are
integer literals and what they are worth, what each opcode's lines decode to; then the encoder's canonical line, whose
tokens are read back one by one. -/

namespace Sys2Proof

/-! ### Lines (R70) -/

theorem splitLines_newline (cs : Text) : splitLines ('\n' :: cs) = [] :: splitLines cs := if_pos rfl

/-- Every text has a first line, if only an empty one. -/
theorem exists_splitLines_eq_cons (text : Text) : ∃ l ls, splitLines text = l :: ls := by
  cases text with
  | nil => exact ⟨_, _, rfl⟩
  | cons c cs =>
    unfold splitLines
    split
    · exact ⟨_, _, rfl⟩
    · split <;> exact ⟨_, _, rfl⟩

/-- A character that is no newline belongs to the first line of the rest. -/
theorem splitLines_cons_of_ne {c : Char} (hc : c ≠ '\n') (cs : Text) :
    ∃ l ls, splitLines cs = l :: ls ∧ splitLines (c :: cs) = (c :: l) :: ls := by
  obtain ⟨l, ls, h⟩ := exists_splitLines_eq_cons cs
  exact ⟨l, ls, h, by rw [splitLines, if_neg hc, h]⟩

theorem newline_not_mem_of_mem_splitLines {text l : Text} (hl : l ∈ splitLines text) : '\n' ∉ l := by
  induction text generalizing l with
  | nil =>
    obtain rfl := List.mem_singleton.mp hl
    exact List.not_mem_nil
  | cons c cs ih =>
    by_cases hc : c = '\n'
    · subst hc
      rw [splitLines_newline] at hl
      rcases List.mem_cons.mp hl with rfl | hl
      · exact List.not_mem_nil
      · exact ih hl
    · obtain ⟨l', ls, hcs, h⟩ := splitLines_cons_of_ne hc cs
      rw [hcs] at ih
      rw [h] at hl
      rcases List.mem_cons.mp hl with rfl | hl
      · exact fun hmem => (List.mem_cons.mp hmem).elim (fun h => hc h.symm) (ih List.mem_cons_self)
      · exact ih (List.mem_cons_of_mem _ hl)

theorem intercalate_splitLines (text : Text) : List.intercalate ['\n'] (splitLines text) = text := by
  induction text with
  | nil => rfl
  | cons c cs ih =>
    by_cases hc : c = '\n'
    · obtain ⟨l, ls, h⟩ := exists_splitLines_eq_cons cs
      rw [h] at ih
      rw [hc, splitLines_newline, h, List.intercalate_cons_cons, ih]
      rfl
    · obtain ⟨l, ls, hcs, h⟩ := splitLines_cons_of_ne hc cs
      rw [h, ← List.singleton_append (x := c) (l := cs), ← ih, hcs]
      cases ls <;> simp [List.intercalate_cons_cons]

/-- Settles O5: one induction on the text for what a line holds, one for what the lines join to. -/
theorem linesRejoinToText : Obligations.LinesRejoinToText :=
  fun text => ⟨intercalate_splitLines text, fun _ => newline_not_mem_of_mem_splitLines⟩

/-! ### Integer literals (R76) -/

/-- The value of a run of decimal digits that continues the number `acc`. -/
def decimalValueFrom (acc : Nat) (ds : Text) : Nat := ds.foldl (fun acc c => 10 * acc + (c.toNat - 48)) acc

theorem digitValue?_eq_some_iff {c : Char} {d : Nat} :
    digitValue? c = some d ↔ ('0' ≤ c ∧ c ≤ '9') ∧ d = c.toNat - 48 := by
  have hrange : ('0' ≤ c ∧ c ≤ '9') ↔ 48 ≤ c.toNat ∧ c.toNat ≤ 57 := Iff.rfl
  rw [hrange, digitValue?]
  split <;> simp_all [eq_comm]

theorem digitsFrom_eq_some_iff {acc n : Nat} {ds : Text} :
    digitsFrom acc ds = some n ↔ (∀ c ∈ ds, '0' ≤ c ∧ c ≤ '9') ∧ n = decimalValueFrom acc ds := by
  induction ds generalizing acc with
  | nil => simp [digitsFrom, decimalValueFrom, eq_comm]
  | cons c cs ih =>
    rw [digitsFrom, List.forall_mem_cons]
    cases hc : digitValue? c with
    | none =>
      have hnot : ¬('0' ≤ c ∧ c ≤ '9') := fun h => by
        cases hc.symm.trans (digitValue?_eq_some_iff.mpr ⟨h, rfl⟩)
      simp [hnot]
    | some d =>
      obtain ⟨hdigit, rfl⟩ := digitValue?_eq_some_iff.mp hc
      simp [ih, hdigit, decimalValueFrom]

theorem naturalLiteral?_eq_some_iff {ds : Text} {n : Nat} :
    naturalLiteral? ds = some n ↔ ds ≠ [] ∧ (∀ c ∈ ds, '0' ≤ c ∧ c ≤ '9') ∧ n = decimalValueFrom 0 ds := by
  cases ds with
  | nil => simp [naturalLiteral?]
  | cons c cs => exact digitsFrom_eq_some_iff.trans (iff_and_self.mpr fun _ => List.cons_ne_nil c cs)

theorem intLiteral?_plus (ds : Text) : intLiteral? ('+' :: ds) = (naturalLiteral? ds).map fun n : Nat => (n : Int) := by
  cases h : naturalLiteral? ds <;> simp [intLiteral?, h]

theorem intLiteral?_minus (ds : Text) :
    intLiteral? ('-' :: ds) = (naturalLiteral? ds).map fun n : Nat => -(n : Int) := by
  cases h : naturalLiteral? ds <;> simp [intLiteral?, h]

theorem intLiteral?_unsigned {t : Text} (hplus : ∀ ds, t ≠ '+' :: ds) (hminus : ∀ ds, t ≠ '-' :: ds) :
    intLiteral? t = (naturalLiteral? t).map fun n : Nat => (n : Int) := by
  unfold intLiteral?
  split
  · exact absurd rfl (hplus _)
  · exact absurd rfl (hminus _)
  · cases naturalLiteral? t <;> rfl

/-- A literal without a sign: neither sign is a digit. -/
theorem intLiteral?_of_digits {ds : Text} (hne : ds ≠ []) (hdigits : ∀ c ∈ ds, '0' ≤ c ∧ c ≤ '9') :
    intLiteral? ds = some (decimalValueFrom 0 ds : Int) := by
  rw [intLiteral?_unsigned, naturalLiteral?_eq_some_iff.mpr ⟨hne, hdigits, rfl⟩, Option.map_some]
  · rintro cs rfl
    exact absurd (hdigits '+' List.mem_cons_self) (by decide)
  · rintro cs rfl
    exact absurd (hdigits '-' List.mem_cons_self) (by decide)

/-- R76: the three forms a literal can have. -/
theorem intLiteral?_eq_some {t : Text} {v : Int} (h : intLiteral? t = some v) :
    ∃ n : Nat, (∃ ds, t = '+' :: ds ∧ naturalLiteral? ds = some n ∧ v = n) ∨
      (∃ ds, t = '-' :: ds ∧ naturalLiteral? ds = some n ∧ v = -n) ∨ (naturalLiteral? t = some n ∧ v = n) := by
  by_cases hplus : ∃ ds, t = '+' :: ds
  · obtain ⟨ds, rfl⟩ := hplus
    rw [intLiteral?_plus] at h
    obtain ⟨n, hn, rfl⟩ := Option.map_eq_some_iff.mp h
    exact ⟨n, .inl ⟨ds, rfl, hn, rfl⟩⟩
  by_cases hminus : ∃ ds, t = '-' :: ds
  · obtain ⟨ds, rfl⟩ := hminus
    rw [intLiteral?_minus] at h
    obtain ⟨n, hn, rfl⟩ := Option.map_eq_some_iff.mp h
    exact ⟨n, .inr (.inl ⟨ds, rfl, hn, rfl⟩)⟩
  · rw [intLiteral?_unsigned (not_exists.mp hplus) (not_exists.mp hminus)] at h
    obtain ⟨n, hn, rfl⟩ := Option.map_eq_some_iff.mp h
    exact ⟨n, .inr (.inr ⟨hn, rfl⟩)⟩

/-- Settles O7: what follows the sign is a natural literal, and a literal without a sign starts with a digit. -/
theorem integerLiteralGrammar : Obligations.IntegerLiteralGrammar := by
  intro t v
  constructor
  · intro h
    obtain ⟨n, ⟨ds, rfl, hn, rfl⟩ | ⟨ds, rfl, hn, rfl⟩ | ⟨hn, rfl⟩⟩ := intLiteral?_eq_some h <;>
      obtain ⟨hne, hdigits, rfl⟩ := naturalLiteral?_eq_some_iff.mp hn
    · exact ⟨['+'], ds, rfl, .inr (.inl rfl), hne, hdigits, (one_mul _).symm⟩
    · exact ⟨['-'], ds, rfl, .inr (.inr rfl), hne, hdigits, (neg_one_mul _).symm⟩
    · exact ⟨[], t, rfl, .inl rfl, hne, hdigits, (one_mul _).symm⟩
  · rintro ⟨sign, ds, rfl, hsign, hne, hdigits, rfl⟩
    have hn : naturalLiteral? ds = some (decimalValueFrom 0 ds) := naturalLiteral?_eq_some_iff.mpr ⟨hne, hdigits, rfl⟩
    rcases hsign with rfl | rfl | rfl
    · exact (intLiteral?_of_digits hne hdigits).trans (congrArg some (one_mul _).symm)
    · exact (intLiteral?_plus ds).trans (hn ▸ congrArg some (one_mul _).symm)
    · exact (intLiteral?_minus ds).trans (hn ▸ congrArg some (neg_one_mul _).symm)

/-! ### What lines decode to (R74, R75, R77, R80) -/

theorem decodeOperands_of_no_literals {o : Opcode} {args : List Text} (hlen : args.length = o.format.arity)
    (hvs : intLiterals? args = none) : decodeOperands o args = .error .notAnInteger := by
  simp [decodeOperands, hlen, hvs]

/-- The lines of an opcode of format TK: operand count, literal, range, in this order. -/
theorem decodesTK_of_format {o : Opcode} {mk : Nat → Instr} (hformat : o.format = .tk)
    (hbuild : ∀ k : Int, buildInstr o [k] = .ok (mk k.toNat)) : DecodesTK o.mnemonic mk := by
  intro text args htok
  rw [decode_of_tokens htok]
  match args with
  | [] => exact decodeOperands_of_length_ne (by simp [hformat, Format.arity])
  | [a] =>
    have hlen : [a].length = o.format.arity := by rw [hformat]; rfl
    cases ha : intLiteral? a with
    | none =>
      rw [decodeOperands_of_no_literals hlen (by simp [intLiterals?, ha])]
      simp only [ha]
    | some k =>
      rw [decodeOperands_of_literals hlen (intLiterals?_cons ha rfl), hbuild]
      by_cases hk : 0 ≤ k ∧ k ≤ 9 <;> simp [hformat, Format.takesIndex, indexValueInRange, hk, ha]
  | a :: b :: rest => exact decodeOperands_of_length_ne (by simp [hformat, Format.arity])

/-- The lines of an opcode of format TN: operand count, then literal. -/
theorem decodesTN_of_format {o : Opcode} {mk : Int → Instr} (hformat : o.format = .tn)
    (hbuild : ∀ n : Int, buildInstr o [n] = .ok (mk n)) : DecodesTN o.mnemonic mk := by
  intro text args htok
  rw [decode_of_tokens htok]
  match args with
  | [] => exact decodeOperands_of_length_ne (by simp [hformat, Format.arity])
  | [a] =>
    have hlen : [a].length = o.format.arity := by rw [hformat]; rfl
    cases ha : intLiteral? a with
    | none =>
      rw [decodeOperands_of_no_literals hlen (by simp [intLiterals?, ha])]
      simp only [ha]
    | some n =>
      rw [decodeOperands_of_literals hlen (intLiterals?_cons ha rfl), hbuild]
      simp [hformat, Format.takesIndex, ha]
  | a :: b :: rest => exact decodeOperands_of_length_ne (by simp [hformat, Format.arity])

/-- The lines of an opcode of format TKN: operand count, both literals, then the range of the first. -/
theorem decodesTKN_of_format {o : Opcode} {mk : Nat → Int → Instr} (hformat : o.format = .tkn)
    (hbuild : ∀ k n : Int, buildInstr o [k, n] = .ok (mk k.toNat n)) : DecodesTKN o.mnemonic mk := by
  intro text args htok
  rw [decode_of_tokens htok]
  match args with
  | [] | [a] => exact decodeOperands_of_length_ne (by simp [hformat, Format.arity])
  | [a, b] =>
    have hlen : [a, b].length = o.format.arity := by rw [hformat]; rfl
    cases ha : intLiteral? a with
    | none =>
      rw [decodeOperands_of_no_literals hlen (by simp [intLiterals?, ha])]
      simp only [ha]
    | some k =>
      cases hb : intLiteral? b with
      | none =>
        rw [decodeOperands_of_no_literals hlen (by simp [intLiterals?, hb])]
        simp only [ha, hb]
      | some n =>
        have hvs : intLiterals? [a, b] = some [k, n] := intLiterals?_cons ha (intLiterals?_cons hb rfl)
        rw [decodeOperands_of_literals hlen hvs, hbuild]
        by_cases hk : 0 ≤ k ∧ k ≤ 9 <;> simp [hformat, Format.takesIndex, indexValueInRange, hk, ha, hb]
  | a :: b :: c :: rest => exact decodeOperands_of_length_ne (by simp [hformat, Format.arity])

/-- Settles O10: a first token that is no mnemonic, then the format of each opcode. -/
theorem linesDecodeByFormat : Obligations.LinesDecodeByFormat := by
  refine ⟨fun text op args htok hop => decode_of_ne_mnemonic htok fun o ho => hop ?_,
    decodesT0_of_format (o := .selectAdd) rfl rfl, decodesT0_of_format (o := .selectSubtract) rfl rfl,
    decodesT0_of_format (o := .selectMultiply) rfl rfl, decodesT0_of_format (o := .selectDivide) rfl rfl,
    decodesTKN_of_format (o := .setVariable) rfl fun _ _ => rfl, decodesTK_of_format (o := .load) rfl fun _ => rfl,
    decodesTK_of_format (o := .loadPrimed) rfl fun _ => rfl, decodesTK_of_format (o := .store) rfl fun _ => rfl,
    decodesTK_of_format (o := .storePrimed) rfl fun _ => rfl, decodesTK_of_format (o := .print) rfl fun _ => rfl,
    decodesTN_of_format (o := .jumpForward) rfl fun _ => rfl, decodesTN_of_format (o := .jumpBackward) rfl fun _ => rfl,
    decodesTN_of_format (o := .jumpForwardIfRunup) rfl fun _ => rfl,
    decodesTN_of_format (o := .jumpBackwardIfRunup) rfl fun _ => rfl⟩
  rw [← ho]
  cases o <;> decide

/-- Settles O11: each line by its tokens and their values. -/
theorem writtenLinesDecode : Obligations.WrittenLinesDecode :=
  ⟨rfl, rfl, rfl, rfl, rfl, rfl⟩

/-- The checks a text that decodes has passed (R80). -/
theorem decode_ok {text : Text} {i : Instr} (h : decode text = .ok i) :
    ∃ o vs, vs.length = o.format.arity ∧ (o.format.takesIndex = true → indexValueInRange (vs.headD 0) = true) ∧
      buildInstr o vs = .ok i := by
  unfold decode at h
  split at h
  · cases h
  split at h
  · cases h
  next o _ =>
  unfold decodeOperands at h
  split at h
  case isFalse => cases h
  split at h
  · cases h
  next hlen _ vs hvs =>
  split at h
  · cases h
  next hrange => exact ⟨o, vs, (length_of_intLiterals? hvs).trans hlen, fun hindex => by simpa [hindex] using hrange, h⟩

/-- R77: over operand values that passed the checks only well-formed instructions are built. -/
theorem wellFormed_of_buildInstr {o : Opcode} {vs : List Int} {i : Instr} (hlen : vs.length = o.format.arity)
    (hrange : o.format.takesIndex = true → indexValueInRange (vs.headD 0) = true) (h : buildInstr o vs = .ok i) :
    i.wellFormed = true := by
  have hindex {k : Int} (hk : indexValueInRange k = true) : indexInRange k.toNat = true := by
    obtain ⟨h0, h9⟩ := of_decide_eq_true hk
    exact decide_eq_true (by omega)
  cases o with
  | selectAdd | selectSubtract | selectMultiply | selectDivide =>
    obtain rfl := List.length_eq_zero_iff.mp hlen
    cases h
    rfl
  | setVariable =>
    obtain ⟨k, n, rfl⟩ := List.length_eq_two.mp hlen
    cases h
    exact hindex (hrange rfl)
  | load | loadPrimed | store | storePrimed | print =>
    obtain ⟨k, rfl⟩ := List.length_eq_one_iff.mp hlen
    cases h
    exact hindex (hrange rfl)
  | jumpForward | jumpBackward | jumpForwardIfRunup | jumpBackwardIfRunup =>
    obtain ⟨n, rfl⟩ := List.length_eq_one_iff.mp hlen
    cases h
    rfl

/-- Settles O2: the range check stands before every instruction with an index. -/
theorem decodedInstrIsWellFormed : Obligations.DecodedInstrIsWellFormed := by
  intro text i h
  obtain ⟨o, vs, hlen, hrange, hbuild⟩ := decode_ok h
  exact wellFormed_of_buildInstr hlen hrange hbuild

end Sys2Proof
end

section
/-! PROOFS. The encoder's canonical line (log 9) read back: a literal by its decimal value, a line by its tokens, a program
text by its lines (30_encoding.md). -/

namespace Sys2Proof

/-! ### Decimal literals (R76) -/

theorem digitChar_isDigit {d : Nat} (hd : d < 10) : '0' ≤ digitChar d ∧ digitChar d ≤ '9' := by
  interval_cases d <;> decide

/-- A digit more is the number times ten, and the digit. -/
theorem decimalValueFrom_digitChar (acc : Nat) {d : Nat} (hd : d < 10) :
    decimalValueFrom acc [digitChar d] = 10 * acc + d := by
  interval_cases d <;> rfl

theorem decimalValueFrom_append (acc : Nat) (ds ds' : Text) :
    decimalValueFrom acc (ds ++ ds') = decimalValueFrom (decimalValueFrom acc ds) ds' := List.foldl_append

/-- With fuel for all digits of `n`, what `decimalFrom` writes before `rest` are digits of value `n`. -/
theorem exists_decimalFrom_eq_append {fuel n : Nat} (rest : Text) (hn : n < fuel) :
    ∃ ds, decimalFrom fuel n rest = ds ++ rest ∧ ds ≠ [] ∧ (∀ c ∈ ds, '0' ≤ c ∧ c ≤ '9') ∧
      decimalValueFrom 0 ds = n := by
  induction fuel generalizing n rest with
  | zero => omega
  | succ fuel ih =>
    unfold decimalFrom
    by_cases hlt : n < 10
    · exact ⟨[digitChar n], if_pos hlt, List.cons_ne_nil _ _, by simpa using digitChar_isDigit hlt,
        by rw [decimalValueFrom_digitChar 0 hlt, Nat.mul_zero, Nat.zero_add]⟩
    · have hmod : n % 10 < 10 := Nat.mod_lt n (by decide)
      obtain ⟨ds, hds, -, hdigits, hvalue⟩ := ih (n := n / 10) (digitChar (n % 10) :: rest) (by omega)
      refine ⟨ds ++ [digitChar (n % 10)], by simp [hlt, hds], by simp, fun c hc => ?_, ?_⟩
      · rcases List.mem_append.mp hc with hc | hc
        · exact hdigits c hc
        · exact List.mem_singleton.mp hc ▸ digitChar_isDigit hmod
      · rw [decimalValueFrom_append, hvalue, decimalValueFrom_digitChar _ hmod, Nat.div_add_mod]

theorem decimal_spec (n : Nat) :
    decimal n ≠ [] ∧ (∀ c ∈ decimal n, '0' ≤ c ∧ c ≤ '9') ∧ decimalValueFrom 0 (decimal n) = n := by
  obtain ⟨ds, hds, h⟩ := exists_decimalFrom_eq_append [] n.lt_succ_self
  rw [List.append_nil] at hds
  rwa [decimal, hds]

theorem intLiteral?_encodeInt (v : Int) : intLiteral? (encodeInt v) = some v := by
  cases v with
  | ofNat n =>
    obtain ⟨hne, hdigits, hvalue⟩ := decimal_spec n
    rw [encodeInt, intLiteral?_of_digits hne hdigits, hvalue]
    rfl
  | negSucc n =>
    obtain ⟨hne, hdigits, hvalue⟩ := decimal_spec (n + 1)
    have hnat : naturalLiteral? (decimal (n + 1)) = some (n + 1) :=
      naturalLiteral?_eq_some_iff.mpr ⟨hne, hdigits, hvalue.symm⟩
    rw [encodeInt, intLiteral?_minus, hnat]
    rfl

theorem intLiterals?_encodeInt (vs : List Int) : intLiterals? (vs.map encodeInt) = some vs := by
  induction vs with
  | nil => rfl
  | cons v vs ih => exact intLiterals?_cons (intLiteral?_encodeInt v) ih

/-! ### The tokens of a canonical line (R73) -/

/-- A character that ends neither a token, nor a comment-free part, nor a line. -/
def PlainChar (c : Char) : Prop := isBlankChar c = false ∧ c ≠ '#' ∧ c ≠ '\n'

/-- A text that is one token of a line and leaves the line free of comments and newlines. -/
def PlainToken (t : Text) : Prop := t ≠ [] ∧ ∀ c ∈ t, PlainChar c

theorem plainChar_of_digit {c : Char} (hc : '0' ≤ c ∧ c ≤ '9') : PlainChar c := by
  have hrange : 48 ≤ c.toNat ∧ c.toNat ≤ 57 := hc
  refine ⟨?_, ?_, ?_⟩
  · rw [← Bool.not_eq_true, isBlankChar_iff_toNat]
    omega
  · rintro rfl
    exact absurd hrange (by decide)
  · rintro rfl
    exact absurd hrange (by decide)

theorem plainChar_minus : PlainChar '-' := by simp [PlainChar, isBlankChar]

theorem plainToken_decimal (n : Nat) : PlainToken (decimal n) := by
  obtain ⟨hne, hdigits, -⟩ := decimal_spec n
  exact ⟨hne, fun c hc => plainChar_of_digit (hdigits c hc)⟩

theorem plainToken_encodeInt (v : Int) : PlainToken (encodeInt v) := by
  cases v with
  | ofNat n => exact plainToken_decimal n
  | negSucc n =>
    obtain ⟨-, hplain⟩ := plainToken_decimal (n + 1)
    exact ⟨List.cons_ne_nil _ _, List.forall_mem_cons.mpr ⟨plainChar_minus, hplain⟩⟩

theorem plainToken_mnemonic (o : Opcode) : PlainToken o.mnemonic := by
  cases o <;> simp [PlainToken, PlainChar, Opcode.mnemonic, isBlankChar]

theorem plainToken_of_mem_encodeTokens {i : Instr} {t : Text} (ht : t ∈ encodeTokens i) : PlainToken t := by
  rcases List.mem_cons.mp ht with rfl | ht
  · exact plainToken_mnemonic _
  · obtain ⟨v, -, rfl⟩ := List.mem_map.mp ht
    exact plainToken_encodeInt v

theorem joinTokens_cons_cons (t u : Text) (ts : List Text) :
    joinTokens (t :: u :: ts) = t ++ ' ' :: joinTokens (u :: ts) := rfl

theorem tokens_of_plainToken {t : Text} (ht : PlainToken t) : tokens t = [t] := by
  obtain ⟨-, -, -, hone⟩ := tokensSplitAtWhitespace
  obtain ⟨hne, hplain⟩ := ht
  exact hone t hne fun c hc => (hplain c hc).1

/-- Joined by single spaces, tokens are read back as they were. -/
theorem tokens_joinTokens {ts : List Text} (hts : ∀ t ∈ ts, PlainToken t) : tokens (joinTokens ts) = ts := by
  induction ts with
  | nil => rfl
  | cons t ts ih =>
    obtain ⟨ht, hts⟩ := List.forall_mem_cons.mp hts
    cases ts with
    | nil => exact tokens_of_plainToken ht
    | cons u ts =>
      obtain ⟨-, -, hsplit, -⟩ := tokensSplitAtWhitespace
      rw [joinTokens_cons_cons, hsplit _ _ ' ' rfl, tokens_of_plainToken ht, ih hts]
      rfl

theorem tokens_encode (i : Instr) : tokens (encode i) = i.opcode.mnemonic :: i.operands.map encodeInt :=
  tokens_joinTokens fun _ => plainToken_of_mem_encodeTokens

/-- Over the operands of a well-formed instruction the range check passes and the instruction is built again. -/
theorem buildInstr_operands {i : Instr} (hwf : i.wellFormed = true) :
    (i.opcode.format.takesIndex && !indexValueInRange (i.operands.headD 0)) = false ∧
      buildInstr i.opcode i.operands = .ok i := by
  have hindex {k : Nat} (hk : indexInRange k = true) : (!indexValueInRange k) = false := by
    have hle : k ≤ 9 := of_decide_eq_true hk
    simpa [indexValueInRange] using hle
  cases i with
  | selectAdd | selectSubtract | selectMultiply | selectDivide => exact ⟨rfl, rfl⟩
  | setVariable k n | load k | loadPrimed k | store k | storePrimed k | print k => exact ⟨hindex hwf, rfl⟩
  | jumpForward n | jumpBackward n | jumpForwardIfRunup n | jumpBackwardIfRunup n => exact ⟨rfl, rfl⟩

/-- Settles O1: the tokens, the literals and the instruction are read back one after the other. -/
theorem decodeEncodeRoundTrip : Obligations.DecodeEncodeRoundTrip := by
  intro i hwf
  obtain ⟨hrange, hbuild⟩ := buildInstr_operands hwf
  have harity : (i.operands.map encodeInt).length = i.opcode.format.arity := by
    rw [List.length_map]
    cases i <;> rfl
  rw [decode_of_tokens (tokens_encode i), decodeOperands_of_literals harity (intLiterals?_encodeInt _), hrange, hbuild]
  rfl

/-! ### The lines of a canonical program text (R70 to R72) -/

theorem splitLines_append_newline {l : Text} (hl : '\n' ∉ l) (text : Text) :
    splitLines (l ++ '\n' :: text) = l :: splitLines text := by
  induction l with
  | nil => exact splitLines_newline text
  | cons c l ih =>
    obtain ⟨hc, hl⟩ := List.ne_and_not_mem_of_not_mem_cons hl
    obtain ⟨l', ls, hrest, h⟩ := splitLines_cons_of_ne hc.symm (l ++ '\n' :: text)
    rw [ih hl] at hrest
    cases hrest
    exact h

theorem mem_joinTokens {ts : List Text} {c : Char} (hc : c ∈ joinTokens ts) : c = ' ' ∨ ∃ t ∈ ts, c ∈ t := by
  induction ts with
  | nil => cases hc
  | cons t ts ih =>
    cases ts with
    | nil => exact .inr ⟨t, List.mem_cons_self, hc⟩
    | cons u ts =>
      rcases List.mem_append.mp hc with hc | hc
      · exact .inr ⟨t, List.mem_cons_self, hc⟩
      · rcases List.mem_cons.mp hc with rfl | hc
        · exact .inl rfl
        · exact (ih hc).imp_right fun ⟨w, hw, hcw⟩ => ⟨w, List.mem_cons_of_mem _ hw, hcw⟩

/-- A canonical line is free of comments and newlines. -/
theorem encode_plain (i : Instr) : '#' ∉ encode i ∧ '\n' ∉ encode i := by
  have hplain {c : Char} (hc : c ∈ encode i) : c ≠ '#' ∧ c ≠ '\n' := by
    rcases mem_joinTokens hc with rfl | ⟨t, ht, hct⟩
    · decide
    · obtain ⟨-, hall⟩ := plainToken_of_mem_encodeTokens ht
      exact (hall c hct).2
  exact ⟨fun h => (hplain h).1 rfl, fun h => (hplain h).2 rfl⟩

theorem head_of_plainToken {t : Text} (ht : PlainToken t) (rest : Text) :
    ∃ c, (t ++ rest).head? = some c ∧ isBlankChar c = false := by
  obtain ⟨hne, hplain⟩ := ht
  obtain ⟨c, cs, rfl⟩ := List.exists_cons_of_ne_nil hne
  exact ⟨c, rfl, (hplain c List.mem_cons_self).1⟩

/-- A line of tokens begins and ends with a token. -/
theorem joinTokens_ends {t : Text} {ts : List Text} (hts : ∀ u ∈ t :: ts, PlainToken u) :
    (∃ c, (joinTokens (t :: ts)).head? = some c ∧ isBlankChar c = false) ∧
      ∃ c, (joinTokens (t :: ts)).getLast? = some c ∧ isBlankChar c = false := by
  obtain ⟨ht, hrest⟩ := List.forall_mem_cons.mp hts
  induction ts generalizing t with
  | nil =>
    obtain ⟨hne, hplain⟩ := ht
    exact ⟨by simpa [joinTokens] using head_of_plainToken ⟨hne, hplain⟩ [],
      _, List.getLast?_eq_some_getLast hne, (hplain _ (List.getLast_mem hne)).1⟩
  | cons u ts ih =>
    obtain ⟨hu, hts'⟩ := List.forall_mem_cons.mp hrest
    obtain ⟨-, c, hc, hblank⟩ := ih hrest hu hts'
    refine ⟨head_of_plainToken ht _, c, ?_, hblank⟩
    rw [joinTokens_cons_cons, List.getLast?_append, List.getLast?_cons, hc]
    rfl

/-- R71, R72: preprocessing keeps a canonical line as it is. -/
theorem stripLine_encode (i : Instr) : stripLine (encode i) = encode i ∧ encode i ≠ [] := by
  have hends := joinTokens_ends (t := i.opcode.mnemonic) (ts := i.operands.map encodeInt)
    fun _ => plainToken_of_mem_encodeTokens
  obtain ⟨hhash, -⟩ := encode_plain i
  exact (stripLine_eq_iff _ _).mpr ⟨encode i, [], [], [], by simp, hhash, .inl rfl, by simp, by simp, by simp, hends⟩

/-- The canonical text of a program is one line per instruction, numbered in order. -/
theorem numberLines_encodeProgram (n : Nat) (is : List Instr) :
    (numberLines n (splitLines (encodeProgram is))).map Entry.text = is.map encode ∧
      (numberLines n (splitLines (encodeProgram is))).map Entry.line = List.range' n is.length := by
  induction is generalizing n with
  | nil => exact ⟨rfl, rfl⟩
  | cons i is ih =>
    obtain ⟨htext, hline⟩ := ih (n + 1)
    obtain ⟨-, hnewline⟩ := encode_plain i
    obtain ⟨hstrip, hne⟩ := stripLine_encode i
    rw [encodeProgram, splitLines_append_newline hnewline, numberLines, hstrip, if_neg hne]
    exact ⟨congrArg (encode i :: ·) htext, congrArg (n :: ·) hline⟩

/-- Settles O3: the lines of the canonical text are the canonical lines, and each decodes to its instruction. -/
theorem assembledProgramRoundTrip : Obligations.AssembledProgramRoundTrip := by
  intro is hwf
  obtain ⟨htext, hline⟩ := numberLines_encodeProgram 1 is
  refine ⟨?_, hline⟩
  calc (preprocess (encodeProgram is)).map (fun e => decode e.text)
      = ((preprocess (encodeProgram is)).map Entry.text).map decode := by rw [List.map_map]; rfl
    _ = (is.map encode).map decode := congrArg _ htext
    _ = is.map .ok := by
      rw [List.map_map]
      exact List.map_congr_left fun i hi => decodeEncodeRoundTrip i (hwf i hi)

end Sys2Proof
end

section
/-! PROOFS. What each instruction leaves (40_mode_select.md, 41_data_transfer.md, 42_control_transfer.md). A completed
instruction proper either writes one slot or leaves the registers and takes a jump or not; the evaluation of the step is
said of the state before the instruction, since no proper writes E or EP. -/

namespace Sys2Proof.Machine

/-! ### Frames and evaluations seen from the start of the step -/

theorem SameOutside.mono {slots slots' : List Slot} {s t : State} (h : SameOutside slots s t) (hsub : slots ⊆ slots') :
    SameOutside slots' s t :=
  fun i hi => h i fun hmem => hi (hsub hmem)

/-- Of the state before it, an evaluation keeps the egress values only. -/
theorem evaluatedFrom_congr_before {s s' t : State} {runup : Bool} (he : s'.e = s.e) (hep : s'.ep = s.ep)
    (h : EvaluatedFrom s' runup t) : EvaluatedFrom s runup t := by
  rw [EvaluatedFrom, he, hep] at h
  exact h

/-- No instruction proper writes E or EP (R113, R204), so the evaluation of a step starts from those of the step. -/
theorem finishStep_evaluatedFrom_start {i : Instr} {s : State} {f : Effect} (e : Entry) (hp : properOf i s = .ok f) :
    EvaluatedFrom s f.state.runup (finishStep e f) := by
  obtain ⟨-, -, -, -, -, -, -, he, hep⟩ := properOf_keeps hp
  exact evaluatedFrom_congr_before he hep (finishStep_evaluatedFrom e f)

/-- An instruction whose proper writes one slot outside E and EP. -/
theorem exec_writeSlot {i : Instr} {s : State} {e : Entry} {j : Slot} {v : Int} (he : s.currentEntry = some e)
    (hp : properOf i s = .ok (writeSlot s j v)) (hE : j ≠ slotE) (hEP : j ≠ slotEP) :
    ∃ t, exec i s = .next t ∧ t.read j = v ∧ SameOutside [j, slotE, slotEP] s t ∧ EvaluatedFrom s s.runup t ∧
      t.mode = s.mode ∧ t.pc = s.pc + 1 ∧ t.out = s.out ∧ Retires e [(j, v)] s t := by
  obtain ⟨hexec, hretires⟩ := exec_retires he hp
  obtain ⟨-, hmode, -, hpc, -, hout, -⟩ := finishStep_fields e (writeSlot s j v)
  have hframe := finishStep_sameOutside e (writeSlot s j v)
  refine ⟨_, hexec, ?_, fun k hk => ?_, finishStep_evaluatedFrom_start e hp, hmode, hpc, hout, hretires⟩
  · exact (hframe j (by simp [hE, hEP])).trans (State.read_write_self s j v)
  · obtain ⟨hkj, hkout⟩ : k ≠ j ∧ k ∉ [slotE, slotEP] := by simpa using hk
    exact (hframe k hkout).trans (State.read_write_of_ne s v hkj.symm)

/-- An instruction whose proper leaves the registers, the mode and runup. -/
theorem finishStep_of_keeps_registers {i : Instr} {s : State} {f : Effect} (e : Entry)
    (hp : properOf i s = .ok f) (hx : f.state.x = s.x) (hmode : f.state.mode = s.mode)
    (hrunup : f.state.runup = s.runup) :
    SameOutside [slotE, slotEP] s (finishStep e f) ∧ EvaluatedFrom s s.runup (finishStep e f) ∧
      (finishStep e f).mode = s.mode := by
  obtain ⟨-, hmode', -⟩ := finishStep_fields e f
  exact ⟨fun j hj => (finishStep_sameOutside e f j hj).trans (State.read_congr hx j),
    hrunup ▸ finishStep_evaluatedFrom_start e hp, hmode'.trans hmode⟩

/-! ### Mode-select instructions (R102, R103) -/

/-- Settles O18: the evaluation in Multiply mode, from a runup latch just cleared. -/
theorem selectMultiplyResult : Obligations.SelectMultiplyResult := by
  intro s e he
  obtain ⟨t, hexec, hmode, heval, hframe, hrest⟩ := exec_selectMode (i := .selectMultiply) he rfl
  obtain ⟨-, hi1, hi2⟩ := hframe.ingress
  rw [EvaluatedFrom, hmode, hi1, hi2] at heval
  obtain ⟨hlaw, hlow, hhigh, hrunup⟩ := heval
  exact ⟨t, hexec, hmode, hlaw, hlow, hhigh, hrunup, hframe, hrest⟩

/-- Settles O19: the evaluation in Divide mode, from a runup latch just cleared, by whether the divisor is 0. -/
theorem selectDivideResult : Obligations.SelectDivideResult := by
  intro s e he
  obtain ⟨t, hexec, hmode, heval, hframe, hrest⟩ := exec_selectMode (i := .selectDivide) he rfl
  obtain ⟨hip, hi1, hi2⟩ := hframe.ingress
  rw [EvaluatedFrom, hmode, hip, hi1, hi2] at heval
  refine ⟨t, hexec, hmode, fun h0 => ?_, fun h0 => ?_, hframe, hrest⟩
  · simpa only [if_pos h0] using heval
  · simpa only [if_neg h0, Bool.false_eq_true, false_or] using heval

/-! ### Data-transfer instructions (R110 to R115) -/

/-- An instruction whose proper writes the slot of a variable. -/
theorem exec_writeVariable {i : Instr} {s : State} {e : Entry} {k : Fin 10} {v : Int} (he : s.currentEntry = some e)
    (hp : properOf i s = .ok (writeSlot s (varSlot k) v)) :
    ∃ t, exec i s = .next t ∧ t.read (varSlot k) = v ∧ SameOutside [varSlot k, slotE, slotEP] s t ∧
      EvaluatedFrom s s.runup t ∧ t.mode = s.mode ∧ t.pc = s.pc + 1 ∧ t.out = s.out ∧ Retires e [(varSlot k, v)] s t :=
  exec_writeSlot he hp (varSlot_ne_slotE k) (varSlot_ne_slotEP k)

/-- Settles O20: the proper writes the variable. -/
theorem setVariableResult : Obligations.SetVariableResult :=
  fun _ _ k _ he => exec_writeVariable he (withVariable_val k _)

/-- Settles O24: the proper writes the variable before the evaluation of its step writes E. -/
theorem storeResult : Obligations.StoreResult :=
  fun _ _ k he => exec_writeVariable he (withVariable_val k _)

/-- Settles O25: the proper writes the variable before the evaluation of its step writes EP. -/
theorem storePrimedResult : Obligations.StorePrimedResult :=
  fun _ _ k he => exec_writeVariable he (withVariable_val k _)

/-- Over a variable, with a mode set, both checks of a load pass. -/
theorem withVariable_requireMode_of_set {s : State} (hmode : s.mode ≠ .unset) (k : Fin 10)
    (p : Slot → Except ErrorKind Effect) : (withVariable k.val fun v => requireMode s (p v)) = p (varSlot k) := by
  rw [withVariable_val]
  exact if_neg hmode

/-- Settles O21: the proper writes the first empty ingress operand, which the zero test of I1 chooses. -/
theorem loadResult : Obligations.LoadResult := by
  intro s e k he hset
  have hp : properOf (.load k.val) s = .ok (writeSlot s s.loadTarget (s.read (varSlot k))) :=
    withVariable_requireMode_of_set hset k _
  obtain ⟨t, hexec, hread, hframe, heval, hmode, hpc, hout, hretires⟩ :=
    exec_writeSlot he hp (loadTarget_ne_slotE s) (loadTarget_ne_slotEP s)
  rcases loadTarget_cases s with ⟨h0, htarget⟩ | ⟨h0, htarget⟩ <;> rw [htarget] at hread hframe hretires
  · exact ⟨t, hexec, fun _ => ⟨hread, hframe slotI2 (by decide), hretires⟩, fun h => absurd h0 h,
      hframe.mono (by simp), heval, hmode, hpc, hout⟩
  · exact ⟨t, hexec, fun h => absurd h h0, fun _ => ⟨hframe slotI1 (by decide), hread, hretires⟩,
      hframe.mono (by simp), heval, hmode, hpc, hout⟩

/-- Settles O22: the proper writes IP. -/
theorem loadPrimedResult : Obligations.LoadPrimedResult :=
  fun _ _ k he hset =>
    exec_writeSlot he (withVariable_requireMode_of_set hset k _) slotIP_ne_slotE slotIP_ne_slotEP

/-- Settles O26: the proper writes the output only. -/
theorem printResult : Obligations.PrintResult := by
  intro s e k he
  have hp : properOf (.print k.val) s = .ok (noWrite (s.emit (s.read (varSlot k)))) := withVariable_val k _
  obtain ⟨hexec, hretires⟩ := exec_retires he hp
  obtain ⟨-, -, -, hpc, -, hout, -⟩ := finishStep_fields e (noWrite (s.emit (s.read (varSlot k))))
  obtain ⟨hframe, heval, hmode⟩ := finishStep_of_keeps_registers e hp rfl rfl rfl
  exact ⟨_, hexec, hout, hframe, heval, hmode, hpc, hretires⟩

theorem withVariable_of_out_of_range {k : Nat} (hk : indexInRange k = false) (p : Slot → Except ErrorKind Effect) :
    withVariable k p = .error .decodeError := by
  rcases withVariable_cases k p with ⟨j, rfl, -⟩ | ⟨-, herr⟩
  · exact absurd (of_decide_eq_false hk) (by omega)
  · exact herr

/-- Settles O27: only a variable index makes a term ill-formed, and `withVariable` refuses it. -/
theorem illFormedIndexTakesDecodeError : Obligations.IllFormedIndexTakesDecodeError := by
  intro i s e hill he
  have hp : properOf i s = .error .decodeError := by
    cases i with
    | setVariable k n | load k | loadPrimed k | store k | storePrimed k | print k =>
      exact withVariable_of_out_of_range hill _
    | selectAdd | selectSubtract | selectMultiply | selectDivide => cases hill
    | jumpForward n | jumpBackward n | jumpForwardIfRunup n | jumpBackwardIfRunup n => cases hill
  rw [exec_eq_execute, hp, execute_error _ he]
  rfl

/-! ### Control-transfer instructions (R120 to R123) -/

/-- A jump taken on the condition `c` leaves the registers, and decides `pc` alone. -/
theorem exec_jumpOn {i : Instr} {s : State} {e : Entry} {c : Bool} {target : Int} (he : s.currentEntry = some e)
    (hp : properOf i s = .ok (if c then jumpTo s target else noWrite s)) :
    ∃ t, exec i s = .next t ∧ t.pc = (if c = true then target else s.pc + 1) ∧ SameOutside [slotE, slotEP] s t ∧
      EvaluatedFrom s s.runup t ∧ t.mode = s.mode ∧ t.out = s.out ∧ Retires e [] s t := by
  obtain ⟨hexec, hretires⟩ := exec_retires he hp
  have hpc := finishStep_conditional_pc e s c target
  obtain ⟨-, -, -, -, -, hout, -⟩ := finishStep_fields e (if c then jumpTo s target else noWrite s)
  obtain ⟨hframe, heval, hmode⟩ := finishStep_of_keeps_registers e hp (by cases c <;> rfl) (by cases c <;> rfl)
    (by cases c <;> rfl)
  exact ⟨_, hexec, hpc, hframe, heval, hmode, hout.trans (by cases c <;> rfl), by cases c <;> exact hretires⟩

/-- Settles O28: a jump taken on every condition. -/
theorem jumpForwardResult : Obligations.JumpForwardResult :=
  fun _ _ _ he => exec_jumpOn (c := true) he rfl

/-- Settles O29: a jump taken on every condition. -/
theorem jumpBackwardResult : Obligations.JumpBackwardResult :=
  fun _ _ _ he => exec_jumpOn (c := true) he rfl

/-- A jump on runup does not clear it, since only a mode-select does (R136). -/
theorem exec_jumpOnRunup {i : Instr} {s : State} {e : Entry} {target : Int} (he : s.currentEntry = some e)
    (hi : ¬i.isModeSelect) (hp : properOf i s = .ok (if s.runup then jumpTo s target else noWrite s)) :
    ∃ t, exec i s = .next t ∧ (s.runup = true → t.pc = target) ∧ (s.runup = false → t.pc = s.pc + 1) ∧
      (s.runup = true → t.runup = true) ∧ SameOutside [slotE, slotEP] s t ∧ EvaluatedFrom s s.runup t ∧
      t.mode = s.mode ∧ t.out = s.out ∧ Retires e [] s t := by
  obtain ⟨t, hexec, hpc, hrest⟩ := exec_jumpOn he hp
  exact ⟨t, hexec, fun hset => by rw [hpc, if_pos hset], fun hclear => by rw [hpc, hclear]; rfl,
    exec_runup_of_set hi hexec, hrest⟩

/-- Settles O30: the jump on runup, forward. -/
theorem jumpForwardIfRunupResult : Obligations.JumpForwardIfRunupResult :=
  fun _ _ _ he => exec_jumpOnRunup he (by simp [Instr.isModeSelect]) rfl

/-- Settles O31: the jump on runup, backward. -/
theorem jumpBackwardIfRunupResult : Obligations.JumpBackwardIfRunupResult :=
  fun _ _ _ he => exec_jumpOnRunup he (by simp [Instr.isModeSelect]) rfl

end Sys2Proof.Machine
end

section
/-! PROOFS. The Multiply and the Divide evaluation and their repetition (R134, R135, R137), and what an instruction proper
can write (R22, R25, R34): one slot, named by `Instr.writesSlot`, the mode, or the output. -/

namespace Sys2Proof

/-- The slot an instruction's proper writes, if any (R22). -/
def Instr.writesSlot (i : Instr) (s : Machine.State) (j : Slot) : Prop :=
  match i with
  | .setVariable k _ => j.val = 5 + k
  | .store k => j.val = 5 + k
  | .storePrimed k => j.val = 5 + k
  | .load _ => j = s.loadTarget
  | .loadPrimed _ => j = Machine.slotIP
  | _ => False

namespace Machine

/-! ### The Multiply and the Divide evaluation (R134, R135) -/

theorem evaluate_ep_write_slotIP {s : State} (hmode : s.mode ≠ .divide) (v : Int) :
    (evaluate (s.write slotIP v)).ep = (evaluate s).ep := by
  have hi1 : (s.write slotIP v).i1 = s.i1 := State.read_write_of_ne s v slotIP_ne_slotI1
  have hi2 : (s.write slotIP v).i2 = s.i2 := State.read_write_of_ne s v slotIP_ne_slotI2
  have hep : (s.write slotIP v).ep = s.ep := State.read_write_of_ne s v slotIP_ne_slotEP
  rw [evaluate_ep, evaluate_ep, State.write_mode, hi1, hi2, hep]
  cases hm : s.mode with
  | divide => exact absurd hm hmode
  | unset | add | subtract | multiply => rfl

/-- Settles O35: the Multiply case of what the evaluation leaves. -/
theorem evaluateMultiply : Obligations.EvaluateMultiply := by
  intro s hmode
  have hnot : s.mode ≠ .divide := by simp [hmode]
  have heval := evaluatedFrom_evaluate s
  rw [EvaluatedFrom, evaluate_mode, hmode, evaluate_i1, evaluate_i2] at heval
  obtain ⟨hlaw, hlow, hhigh, hrunup⟩ := heval
  refine ⟨hlaw, hlow, hhigh, hrunup, evaluate_sameOutside s, evaluate_eq s, fun v => ?_⟩
  obtain ⟨he, -⟩ := evaluate_write_slotIP hnot v
  exact ⟨he, evaluate_ep_write_slotIP hnot v⟩

/-- R135: dividing by 0 writes no slot and sets runup. -/
theorem evaluate_of_divide_by_zero {s : State} (hmode : s.mode = .divide) (h0 : s.i2 = 0) :
    evaluate s = { s with runup := true } := by
  simp [evaluate, evalWrites, evalTrips, State.writeAll, hmode, h0]

/-- Settles O36: the division by 0, and the Divide case of what the evaluation leaves. -/
theorem evaluateDivide : Obligations.EvaluateDivide := by
  intro s hmode
  refine ⟨evaluate_of_divide_by_zero hmode, fun h0 => ?_, evaluate_sameOutside s, evaluate_eq s⟩
  have heval := evaluatedFrom_evaluate s
  rw [EvaluatedFrom, evaluate_mode, hmode, evaluate_i1, evaluate_i2, evaluate_ip] at heval
  simpa only [if_neg h0] using heval

/-! ### What an instruction proper writes (R22, R25, R34) -/

theorem withVariable_ok_val {k : Nat} {p : Slot → Except ErrorKind Effect} {f : Effect} (h : withVariable k p = .ok f) :
    ∃ j : Fin 10, k = j.val ∧ p (varSlot j) = .ok f := by
  rcases withVariable_cases k p with ⟨j, hk, hj⟩ | ⟨-, herr⟩
  · exact ⟨j, hk, hj.symm.trans h⟩
  · cases herr.symm.trans h

/-- Everything a completed instruction proper can be: the latching of a mode-select's mode, the write of one slot, a print,
or a jump taken or not. -/
theorem properOf_ok_cases {i : Instr} {s : State} {f : Effect} (hp : properOf i s = .ok f) :
    (∃ m, f = selectMode m s ∧ (i = .selectAdd ∧ m = .add ∨ i = .selectSubtract ∧ m = .subtract ∨
      i = .selectMultiply ∧ m = .multiply ∨ i = .selectDivide ∧ m = .divide)) ∨
    (∃ j v, i.writesSlot s j ∧ f = writeSlot s j v) ∨
    (∃ k : Fin 10, i = .print k.val ∧ f = noWrite (s.emit (s.read (varSlot k)))) ∨
    ∃ (c : Bool) (target : Int), f = if c then jumpTo s target else noWrite s := by
  cases i with
  | selectAdd | selectSubtract | selectMultiply | selectDivide =>
    cases hp
    exact .inl ⟨_, rfl, by simp⟩
  | setVariable k n | store k | storePrimed k =>
    obtain ⟨k, rfl, hk⟩ := withVariable_ok_val hp
    cases hk
    exact .inr (.inl ⟨varSlot k, _, rfl, rfl⟩)
  | load k | loadPrimed k =>
    obtain ⟨k, hk⟩ := withVariable_ok hp
    cases requireMode_ok hk
    exact .inr (.inl ⟨_, _, rfl, rfl⟩)
  | print k =>
    obtain ⟨k, rfl, hk⟩ := withVariable_ok_val hp
    cases hk
    exact .inr (.inr (.inl ⟨k, rfl, rfl⟩))
  | jumpForward n | jumpBackward n =>
    cases hp
    exact .inr (.inr (.inr ⟨true, _, rfl⟩))
  | jumpForwardIfRunup n | jumpBackwardIfRunup n =>
    cases hp
    exact .inr (.inr (.inr ⟨s.runup, _, rfl⟩))

/-- R22: what an instruction proper reads back in every slot it does not write. -/
theorem properOf_read {i : Instr} {s : State} {f : Effect} {j : Slot} (hp : properOf i s = .ok f)
    (hj : ¬i.writesSlot s j) : f.state.read j = s.read j := by
  rcases properOf_ok_cases hp with ⟨m, rfl, -⟩ | ⟨k, v, hk, rfl⟩ | ⟨k, -, rfl⟩ | ⟨c, target, rfl⟩
  · rfl
  · exact State.read_write_of_ne s v fun h => hj (h ▸ hk)
  · rfl
  · cases c <;> rfl

/-- R111, R112: only a load writes a slot below the variables. -/
theorem load_of_writesSlot {i : Instr} {s : State} {j : Slot} (hj : j.val < 5) (h : i.writesSlot s j) :
    ((∃ k, i = .load k) ∧ j = s.loadTarget) ∨ ((∃ k, i = .loadPrimed k) ∧ j = slotIP) := by
  cases i with
  | load k => exact .inl ⟨⟨k, rfl⟩, h⟩
  | loadPrimed k => exact .inr ⟨⟨k, rfl⟩, h⟩
  | setVariable k n | store k | storePrimed k =>
    rw [Instr.writesSlot] at h
    omega
  | selectAdd | selectSubtract | selectMultiply | selectDivide | print k => exact h.elim
  | jumpForward n | jumpBackward n | jumpForwardIfRunup n | jumpBackwardIfRunup n => exact h.elim

/-- R110, R113, R114: the writers of a variable. -/
theorem writer_of_writesSlot_varSlot {i : Instr} {s : State} {k : Fin 10} (h : i.writesSlot s (varSlot k)) :
    (∃ n, i = .setVariable k.val n) ∨ i = .store k.val ∨ i = .storePrimed k.val := by
  cases i with
  | setVariable l n | store l | storePrimed l =>
    obtain rfl : k.val = l := Nat.add_left_cancel h
    simp
  | load l =>
    rcases loadTarget_cases s with ⟨-, htarget⟩ | ⟨-, htarget⟩ <;>
      exact absurd (h.trans htarget) (by simp)
  | loadPrimed l => exact absurd h (varSlot_ne_slotIP k)
  | selectAdd | selectSubtract | selectMultiply | selectDivide | print l => exact h.elim
  | jumpForward n | jumpBackward n | jumpForwardIfRunup n | jumpBackwardIfRunup n => exact h.elim

/-- R25: an instruction proper writes the mode in a mode-select only, its own. -/
theorem properOf_mode {i : Instr} {s : State} {f : Effect} (hp : properOf i s = .ok f) :
    f.state.mode = s.mode ∨ i = .selectAdd ∧ f.state.mode = .add ∨ i = .selectSubtract ∧ f.state.mode = .subtract ∨
      i = .selectMultiply ∧ f.state.mode = .multiply ∨ i = .selectDivide ∧ f.state.mode = .divide := by
  rcases properOf_ok_cases hp with ⟨m, rfl, hm⟩ | ⟨k, v, -, rfl⟩ | ⟨k, -, rfl⟩ | ⟨c, target, rfl⟩
  · exact .inr hm
  · exact .inl rfl
  · exact .inl rfl
  · cases c <;> exact .inl rfl

/-- R34: an instruction proper writes the output in a print only. -/
theorem properOf_out {i : Instr} {s : State} {f : Effect} (hp : properOf i s = .ok f) :
    f.state.out = s.out ∨ ∃ k : Fin 10, i = .print k.val ∧ f.state.out = s.out ++ [s.read (varSlot k)] := by
  rcases properOf_ok_cases hp with ⟨m, rfl, -⟩ | ⟨k, v, -, rfl⟩ | ⟨k, rfl, rfl⟩ | ⟨c, target, rfl⟩
  · exact .inl rfl
  · exact .inl rfl
  · exact .inr ⟨k, rfl, rfl⟩
  · cases c <;> exact .inl rfl

/-! ### Repetition (R137) -/

/-- The evaluation is determined by the mode, the ingress and egress values and runup. -/
theorem evaluate_congr {s t : State} (hmode : t.mode = s.mode) (hip : t.ip = s.ip) (hi1 : t.i1 = s.i1)
    (hi2 : t.i2 = s.i2) (he : t.e = s.e) (hep : t.ep = s.ep) (hrunup : t.runup = s.runup) :
    (evaluate t).e = (evaluate s).e ∧ (evaluate t).ep = (evaluate s).ep ∧ (evaluate t).runup = (evaluate s).runup := by
  refine ⟨?_, ?_, ?_⟩
  · rw [evaluate_e, evaluate_e, State.dividend, State.dividend, hmode, hip, hi1, hi2, he]
  · rw [evaluate_ep, evaluate_ep, State.dividend, State.dividend, hmode, hip, hi1, hi2, hep]
  · rw [evaluate_runup, evaluate_runup, evalTrips, evalTrips, State.dividend, State.dividend, hmode, hip, hi1, hi2,
      hrunup]

/-- A second evaluation reads the mode and the ingress values the first one read, so it writes what the first one wrote. -/
theorem evaluate_evaluate_egress (s : State) :
    (evaluate (evaluate s)).e = (evaluate s).e ∧ (evaluate (evaluate s)).ep = (evaluate s).ep := by
  rw [evaluate_e (evaluate s), evaluate_ep (evaluate s), State.dividend, evaluate_mode, evaluate_ip, evaluate_i1,
    evaluate_i2, evaluate_e s, evaluate_ep s, State.dividend]
  cases s.mode with
  | unset | add | subtract | multiply => exact ⟨rfl, rfl⟩
  | divide => by_cases h0 : s.i2 = 0 <;> simp [h0]

theorem evaluate_evaluate_runup (s : State) : (evaluate (evaluate s)).runup = (evaluate s).runup := by
  have htrips : evalTrips (evaluate s) = evalTrips s := by
    rw [evalTrips, evalTrips, State.dividend, State.dividend, evaluate_mode, evaluate_ip, evaluate_i1, evaluate_i2]
  rw [evaluate_runup (evaluate s), htrips, evaluate_runup, Bool.or_assoc, Bool.or_self]

theorem x_eq_of_read_eq {s t : State} (h : ∀ j, t.read j = s.read j) : t.x = s.x :=
  Vector.ext fun j hj => h ⟨j, hj⟩

theorem evaluate_evaluate (s : State) : evaluate (evaluate s) = evaluate s := by
  obtain ⟨he, hep⟩ := evaluate_evaluate_egress s
  have hx : (evaluate (evaluate s)).x = (evaluate s).x := x_eq_of_read_eq fun j => by
    by_cases hE : j = slotE
    · exact hE ▸ he
    by_cases hEP : j = slotEP
    · exact hEP ▸ hep
    · exact evaluate_read_of_ne _ hE hEP
  rw [evaluate_eq (evaluate s), hx, evaluate_evaluate_runup]

/-- Anything but a load leaves the ingress values. -/
theorem properOf_ingress {i : Instr} {s : State} {f : Effect} (hi : ¬i.isLoad) (hp : properOf i s = .ok f) :
    f.state.ip = s.ip ∧ f.state.i1 = s.i1 ∧ f.state.i2 = s.i2 := by
  have hkeeps {j : Slot} (hj : j.val < 5) : f.state.read j = s.read j := properOf_read hp fun hwrites => by
    rcases load_of_writesSlot hj hwrites with ⟨⟨k, hk⟩, -⟩ | ⟨⟨k, hk⟩, -⟩
    · exact hi ⟨k, .inl hk⟩
    · exact hi ⟨k, .inr hk⟩
  exact ⟨hkeeps (by decide), hkeeps (by decide), hkeeps (by decide)⟩

theorem properOf_mode_of_not_modeSelect {i : Instr} {s : State} {f : Effect} (hi : ¬i.isModeSelect)
    (hp : properOf i s = .ok f) : f.state.mode = s.mode := by
  rcases properOf_mode hp with hmode | ⟨rfl, -⟩ | ⟨rfl, -⟩ | ⟨rfl, -⟩ | ⟨rfl, -⟩
  · exact hmode
  all_goals exact absurd (by simp [Instr.isModeSelect]) hi

/-- An instruction takes an error, which writes nothing but the status, or its proper completes and the step goes on. -/
theorem exec_raises_or_finishes {i : Instr} {s t : State} (h : exec i s = .next t) :
    (∃ kind line, t = s.raise kind line) ∨
      ∃ e f, s.currentEntry = some e ∧ properOf i s = .ok f ∧ t = finishStep e f := by
  rcases exec_cases h with hfinish | ⟨e, kind, -, -, ht⟩ | ⟨-, ht⟩
  · exact .inr hfinish
  · exact .inl ⟨_, _, ht⟩
  · exact .inl ⟨_, _, ht⟩

/-- Settles O37: a second evaluation reads what the first one read, and so does that of an instruction which is neither a
load nor a mode-select. -/
theorem evaluationRepeats : Obligations.EvaluationRepeats := by
  refine ⟨evaluate_evaluate, fun i s t hsettled h hload hselect => ?_⟩
  rcases exec_raises_or_finishes h with ⟨kind, line, rfl⟩ | ⟨e, f, -, hp, rfl⟩
  · exact ⟨rfl, rfl, rfl⟩
  · obtain ⟨hip, hi1, hi2⟩ := properOf_ingress hload hp
    obtain ⟨-, -, -, -, -, -, -, he, hep⟩ := properOf_keeps hp
    obtain ⟨hx, -, hrunup, -⟩ := finishStep_fields e f
    have heval := evaluate_congr (properOf_mode_of_not_modeSelect hselect hp) hip hi1 hi2 he hep
      (properOf_runup hselect hp)
    rw [hsettled] at heval
    obtain ⟨hE, hEP, hR⟩ := heval
    exact ⟨(State.read_congr hx slotE).trans hE, (State.read_congr hx slotEP).trans hEP, hrunup.trans hR⟩

/-! ### Who writes what (R22, R25, R34, R37, R62) -/

/-- R139: the evaluations that write EP. -/
theorem EvaluatedFrom.writes_ep {s t : State} {runup : Bool} (h : EvaluatedFrom s runup t) (hne : t.ep ≠ s.ep) :
    t.mode = .multiply ∨ t.mode = .divide ∧ t.i2 ≠ 0 := by
  rw [EvaluatedFrom] at h
  cases hmode : t.mode with
  | unset | add | subtract =>
    rw [hmode] at h
    obtain ⟨-, hep, -⟩ := h
    exact absurd hep hne
  | multiply => exact .inl rfl
  | divide =>
    refine .inr ⟨rfl, fun h0 => ?_⟩
    simp only [hmode, if_pos h0] at h
    obtain ⟨-, hep, -⟩ := h
    exact hne hep

/-- R139: the evaluations that write E. -/
theorem EvaluatedFrom.writes_e {s t : State} {runup : Bool} (h : EvaluatedFrom s runup t) (hne : t.e ≠ s.e) :
    t.mode = .add ∨ t.mode = .subtract ∨ t.mode = .multiply ∨ t.mode = .divide ∧ t.i2 ≠ 0 := by
  rw [EvaluatedFrom] at h
  cases hmode : t.mode with
  | unset =>
    rw [hmode] at h
    obtain ⟨he, -⟩ := h
    exact absurd he hne
  | add | subtract | multiply => simp
  | divide =>
    refine .inr (.inr (.inr ⟨rfl, fun h0 => ?_⟩))
    simp only [hmode, if_pos h0] at h
    obtain ⟨he, -⟩ := h
    exact hne he

/-- R22: a completed step changes a slot outside E and EP only by its instruction proper. -/
theorem finishStep_writesSlot {i : Instr} {s : State} {f : Effect} {j : Slot} (e : Entry) (hp : properOf i s = .ok f)
    (hj : j ∉ [slotE, slotEP]) (hne : (finishStep e f).read j ≠ s.read j) : i.writesSlot s j := by
  by_contra hnot
  exact hne ((finishStep_sameOutside e f j hj).trans (properOf_read hp hnot))

/-- Settles O41: the instruction proper for the ingress slots and the variables, the evaluation for E and EP. -/
theorem registerWriters : Obligations.RegisterWriters := by
  intro i s t h
  rcases exec_raises_or_finishes h with ⟨kind, line, rfl⟩ | ⟨e, f, -, hp, rfl⟩
  · simp
  have hwrites {j : Slot} := finishStep_writesSlot (j := j) e hp
  have heval := finishStep_evaluatedFrom_start e hp
  refine ⟨fun hne => ?_, fun hne => ?_, fun hne => ?_, heval.writes_ep, heval.writes_e,
    fun k hne => writer_of_writesSlot_varSlot (hwrites (by simp) hne)⟩
  · rcases load_of_writesSlot (by decide) (hwrites (by decide) hne) with ⟨-, htarget⟩ | ⟨hload, -⟩
    · rcases loadTarget_cases s with ⟨-, h⟩ | ⟨-, h⟩ <;> exact absurd (htarget.trans h) (by decide)
    · exact hload
  · rcases load_of_writesSlot (by decide) (hwrites (by decide) hne) with ⟨hload, htarget⟩ | ⟨-, hip⟩
    · rcases loadTarget_cases s with ⟨h0, -⟩ | ⟨-, h⟩
      · exact ⟨hload, h0⟩
      · exact absurd (htarget.trans h) (by decide)
    · exact absurd hip (by decide)
  · rcases load_of_writesSlot (by decide) (hwrites (by decide) hne) with ⟨hload, htarget⟩ | ⟨-, hip⟩
    · rcases loadTarget_cases s with ⟨-, h⟩ | ⟨h0, -⟩
      · exact absurd (htarget.trans h) (by decide)
      · exact ⟨hload, h0⟩
    · exact absurd hip (by decide)

/-- A step ends the run and writes nothing but the status, or the instruction proper of the fetched line completes. -/
theorem step_ends_or_finishes {s t : State} (h : step s = .next t) :
    (t.status ≠ .running ∧ t = { s with status := t.status }) ∨
      ∃ e i f, s.loopTest = true ∧ s.currentEntry = some e ∧ decode e.text = .ok i ∧ properOf i s = .ok f ∧
        t = finishStep e f := by
  obtain ⟨-, ⟨-, rfl⟩ | ⟨-, -, rfl⟩ | ⟨e, c, -, -, -, rfl⟩ | ⟨e, i, htest, he, hdec, hexec⟩⟩ := step_cases h
  · exact .inl (endRun_changes_status_only s)
  · exact .inl ⟨nofun, rfl⟩
  · exact .inl ⟨nofun, rfl⟩
  · rcases exec_raises_or_finishes hexec with ⟨kind, line, rfl⟩ | ⟨e', f, he', hp, rfl⟩
    · exact .inl ⟨nofun, rfl⟩
    · cases he.symm.trans he'
      exact .inr ⟨e, i, f, htest, he, hdec, hp, rfl⟩

/-- Settles O42: only the proper of a mode-select writes the mode, and none writes Unset. -/
theorem modeLatchPersists : Obligations.ModeLatchPersists := by
  refine ⟨fun i s t h hne => ?_, fun s t h hset => ?_⟩
  · rcases exec_raises_or_finishes h with ⟨kind, line, rfl⟩ | ⟨e, f, -, hp, rfl⟩
    · exact absurd rfl hne
    · obtain ⟨-, hmode, -⟩ := finishStep_fields e f
      rw [hmode] at hne ⊢
      exact (properOf_mode hp).resolve_left hne
  · rcases step_ends_or_finishes h with ⟨-, hframe⟩ | ⟨e, i, f, -, -, -, hp, rfl⟩
    · rw [hframe]
      exact hset
    · obtain ⟨-, hmode, -⟩ := finishStep_fields e f
      rw [hmode]
      rcases properOf_mode hp with h | ⟨-, h⟩ | ⟨-, h⟩ | ⟨-, h⟩ | ⟨-, h⟩ <;> rw [h]
      · exact hset
      all_goals decide

/-- Settles O43: behind the instruction proper nothing writes the output. -/
theorem outputGrowsOnlyByPrint : Obligations.OutputGrowsOnlyByPrint := by
  intro s t h
  rcases step_ends_or_finishes h with ⟨-, hframe⟩ | ⟨e, i, f, -, he, hdec, hp, rfl⟩
  · exact .inl (congrArg State.out hframe :)
  · obtain ⟨-, -, -, -, -, hout, -⟩ := finishStep_fields e f
    rw [hout]
    refine (properOf_out hp).imp_right ?_
    rintro ⟨k, rfl, hprint⟩
    exact ⟨e, k, he, hdec, hprint⟩

/-- Settles O44: neither the end of a run nor a retired instruction writes them. -/
theorem programAndConfigurationNeverChange : Obligations.ProgramAndConfigurationNeverChange := by
  intro s t h
  rcases step_ends_or_retires h with ⟨-, hframe⟩ | ⟨-, -, e, changes, -, -, -, -, hkeeps⟩
  · rw [hframe]
    exact ⟨rfl, rfl, rfl, rfl⟩
  · exact hkeeps

end Machine
end Sys2Proof
end

section
/-! PROOFS. The step as a whole (44_sequencer.md, 60_exceptions.md): what it runs, the errors of its checks with their
lines, and the cause every ended run has. -/

namespace Sys2Proof.Machine

/-! ### What a step runs (R150 to R156) -/

/-- With a step left in the budget, an entry at `pc` is fetched. -/
theorem loopTest_of_currentEntry {s : State} {e : Entry} (he : s.currentEntry = some e) (hbudget : s.steps < s.maxSteps) :
    s.loopTest = true := by
  obtain ⟨-, hpc⟩ := (currentEntry_isSome_iff s).mp ⟨e, he⟩
  exact (loopTest_eq_true_iff s).mpr ⟨hpc, hbudget⟩

theorem fetchDecode_ok {s : State} {e : Entry} {i : Instr} (he : s.currentEntry = some e) (hdec : decode e.text = .ok i) :
    fetchDecode s = .ok i := by
  simp [fetchDecode, he, hdec]

theorem step_eq_exec {s : State} {e : Entry} {i : Instr} (hrun : s.status = .running) (hbudget : s.steps < s.maxSteps)
    (he : s.currentEntry = some e) (hdec : decode e.text = .ok i) : step s = exec i s :=
  step_of_fetchDecode_ok hrun (loopTest_of_currentEntry he hbudget) (fetchDecode_ok he hdec)

/-- Settles O12: the loop test and the fetch pass, and the decoder answers well-formed instructions only. -/
theorem stepRunsDecodedInstruction : Obligations.StepRunsDecodedInstruction :=
  fun _ _ _ hrun hbudget he hdec => ⟨step_eq_exec hrun hbudget he hdec, decodedInstrIsWellFormed _ _ hdec⟩

theorem currentEntry_of_nonneg {s : State} (hpc : 0 ≤ s.pc) : s.currentEntry = s.prog[s.pc.toNat]? :=
  if_neg (by omega)

/-- The word the host places is the entry at `pc` (log 7). -/
theorem currentEntry_withFetchWord (s : State) (nbits w : Nat) :
    ∃ line, (s.withFetchWord nbits w).currentEntry = some { line := line, text := lineOfWord nbits w } := by
  obtain ⟨line, hline⟩ := placeLine_get s.prog s.pc.toNat (lineOfWord nbits w)
  have hpc : (s.withFetchWord nbits w).pc = if s.pc < 0 then 0 else s.pc := rfl
  have hnat : (s.withFetchWord nbits w).pc.toNat = s.pc.toNat := by
    rw [hpc]
    split <;> omega
  refine ⟨line, ?_⟩
  rw [currentEntry_of_nonneg (by rw [hpc]; split <;> omega), hnat]
  exact hline

theorem decodeTableWord_eq_some {nbits w : Nat} {i : Instr} (h : decodeTableWord nbits w = some i) :
    decode (lineOfWord nbits w) = .ok i := by
  unfold decodeTableWord at h
  split at h
  · cases h
    assumption
  · cases h

/-- Settles O14: the placed line is fetched, with a step left in the budget. -/
theorem placedWordIsRunNext : Obligations.PlacedWordIsRunNext := by
  intro s nbits w i h
  obtain ⟨line, he⟩ := currentEntry_withFetchWord s nbits w
  have hbudget : (s.withFetchWord nbits w).steps < (s.withFetchWord nbits w).maxSteps := by
    change s.steps < if s.steps < s.maxSteps then s.maxSteps else s.steps + 1
    split <;> omega
  exact step_eq_exec rfl hbudget he (decodeTableWord_eq_some h)

theorem step_of_not_running {s : State} (h : s.status ≠ .running) : step s = .fault .runIsOver := by
  unfold step
  split
  · exact absurd ‹_› h
  · rfl
  · rfl

/-- Settles O15: a step is defined from Running only. -/
theorem stepsExactlyWhileRunning : Obligations.StepsExactlyWhileRunning :=
  fun _ => ⟨exists_step_eq_next, step_of_not_running⟩

/-- Settles O45: a step ends the run or retires the fetched instruction. -/
theorem everyStepRecordsOrEnds : Obligations.EveryStepRecordsOrEnds := by
  intro s t h
  rcases step_ends_or_retires h with ⟨hended, hframe⟩ | ⟨-, hrunning, e, changes, he, hsteps, htrace, -⟩
  · exact .inl ⟨hended, (congrArg State.steps hframe :), (congrArg State.trace hframe :)⟩
  · exact .inr ⟨hrunning, hsteps, e, _, he, htrace⟩

/-! ### The errors of the checks, and their lines (R151 to R153, R159, R171 to R176) -/

theorem currentEntry_of_neg {s : State} (hpc : s.pc < 0) : s.currentEntry = none := if_pos hpc

theorem lineOfStep_of_record {s : State} {n : Nat} {r : TraceRecord} (hr : s.trace[n]? = some r) :
    s.lineOfStep (n + 1) = r.line := by
  simp [State.lineOfStep, hr]

theorem limitLine_of_record {s : State} {n : Nat} {r : TraceRecord} (hmax : s.maxSteps = n + 1)
    (hr : s.trace[n]? = some r) : s.limitLine = r.line := by
  rw [State.limitLine, if_neg (by omega), hmax, lineOfStep_of_record hr]

theorem limitLine_of_no_budget {s : State} {e : Entry} (hmax : s.maxSteps = 0) (he : s.currentEntry = some e) :
    s.limitLine = e.line := by
  simp [State.limitLine, hmax, he]

theorem endRun_of_pc_before_end {s : State} (hpc : s.pc < s.prog.length) :
    s.endRun = s.raise .stepLimitExceeded s.limitLine := if_pos hpc

/-- Settles O49: the loop test fails on the budget, and the end test finds `pc` before the program's end. -/
theorem stepLimitExceededAtBudget : Obligations.StepLimitExceededAtBudget := by
  intro s hrun hpc hused
  have htest : s.loopTest = false := by
    rw [← Bool.not_eq_true, loopTest_eq_true_iff]
    omega
  refine ⟨s.limitLine, ?_, fun n r hmax hr => limitLine_of_record hmax hr, fun e hmax he => limitLine_of_no_budget hmax he⟩
  rw [step_of_loopTest_false hrun htest, endRun_of_pc_before_end hpc]
  rfl

/-- Settles O50: the loop test passes and the fetch finds no entry below 0. -/
theorem negativePcTakesRuntimeFault : Obligations.NegativePcTakesRuntimeFault := by
  intro s hrun hpc hbudget
  have htest : s.loopTest = true := (loopTest_eq_true_iff s).mpr ⟨by omega, hbudget⟩
  have hfetch : fetchDecode s = .error (.runtimeFault, s.lastLine) := by simp [fetchDecode, currentEntry_of_neg hpc]
  refine ⟨s.lastLine, step_of_fetchDecode_error hrun htest hfetch, fun n r hsteps hr => ?_⟩
  rw [State.lastLine, hsteps, lineOfStep_of_record hr]

/-- Settles O51: the fetch passes and the decoder refuses the entry's text. -/
theorem malformedLineTakesDecodeError : Obligations.MalformedLineTakesDecodeError := by
  intro s e c hrun hbudget he hdec
  have hfetch : fetchDecode s = .error (.decodeError, e.line) := by simp [fetchDecode, he, hdec]
  exact step_of_fetchDecode_error hrun (loopTest_of_currentEntry he hbudget) hfetch

/-! ### Every ended run has its cause (R151, R158 to R160, R170) -/

/-- The end test explains its status: completion past the end, else a used budget. -/
theorem endRun_explained {s : State} (htest : s.loopTest = false) : s.endRun.StatusExplained := by
  rw [← Bool.not_eq_true, loopTest_eq_true_iff] at htest
  by_cases hpc : s.pc < s.prog.length
  · rw [endRun_of_pc_before_end hpc]
    have hused : s.maxSteps ≤ s.steps := by omega
    exact ⟨hpc, hused, rfl⟩
  · rw [State.endRun, if_neg hpc]
    exact (not_lt.mp hpc : (s.prog.length : Int) ≤ s.pc)

/-- R172: the one error a decoded instruction takes is that of a load in Unset mode, at its own line. -/
theorem exec_raises_invalidState {i : Instr} {s : State} {e : Entry} {kind : ErrorKind} {line : Nat}
    (hwf : i.wellFormed = true) (he : s.currentEntry = some e) (h : exec i s = .next (s.raise kind line)) :
    kind = .invalidState ∧ i.isLoad ∧ s.mode = .unset ∧ line = e.line := by
  by_cases hload : i.isLoad ∧ s.mode = .unset
  · obtain ⟨hisLoad, hunset⟩ := hload
    have hstatus := congrArg State.status (Host.Outcome.next.inj (h.symm.trans (exec_load_of_unset hwf hisLoad hunset he)))
    simp only [State.raise_status, Status.error.injEq] at hstatus
    obtain ⟨hkind, hline⟩ := hstatus
    exact ⟨hkind, hisLoad, hunset, hline⟩
  · obtain ⟨t, changes, hexec, hretires⟩ := exists_exec_retires hwf hload he
    cases h.symm.trans hexec
    exact absurd hretires not_retires_raise

/-- Settles O47: each way a step can go, with the cause and the line of the status it leaves. -/
theorem statusAlwaysExplained : Obligations.StatusAlwaysExplained := by
  intro s t h
  obtain ⟨hrun, ⟨htest, rfl⟩ | ⟨-, hpc, rfl⟩ | ⟨e, c, -, he, hdec, rfl⟩ | ⟨e, i, -, he, hdec, hexec⟩⟩ := step_cases h
  · exact endRun_explained htest
  · exact ⟨hpc, rfl⟩
  · exact ⟨e, c, he, hdec, rfl⟩
  · rcases exec_raises_or_retires hexec with ⟨kind, line, rfl⟩ | ⟨-, -, -, -, -, hstatus, -⟩
    · obtain ⟨rfl, hload, hunset, rfl⟩ := exec_raises_invalidState (decodedInstrIsWellFormed _ _ hdec) he hexec
      exact ⟨e, i, he, hdec, hload, hunset, rfl⟩
    · rw [State.StatusExplained, hstatus, hrun]
      trivial

end Sys2Proof.Machine
end

section
/-! PROOFS. The invariant of reachable states: it holds of every reset, each step keeps it, and so do whole runs
(10_state.md, 44_sequencer.md). -/

namespace Sys2Proof.Machine

/-! ### Every step keeps the machine coherent (R32, R35, R131, R137, R156) -/

theorem mem_prog_of_currentEntry {s : State} {e : Entry} (he : s.currentEntry = some e) : e ∈ s.prog := by
  unfold State.currentEntry at he
  split at he
  · cases he
  · exact List.mem_of_getElem? he

/-- R156: a retired instruction goes on with the numbering of the trace, and its record shows the state it leaves. -/
theorem traceCoherent_of_retires {s t : State} {e : Entry} {changes : List Change} (h : s.TraceCoherent)
    (he : s.currentEntry = some e) (hretires : Retires e changes s t) : t.TraceCoherent := by
  obtain ⟨hlength, hnumbered, hdrawn, -, -⟩ := h
  obtain ⟨hsteps, htrace, -, hprog, -⟩ := hretires
  rw [State.TraceCoherent, htrace, hsteps, hprog]
  refine ⟨by simp [hlength], fun n r hr => ?_, fun r hr => ?_, fun r hr => ?_, fun hempty => by simp at hempty⟩
  · rcases lt_or_ge n s.trace.length with hn | hn
    · exact hnumbered n r (by rwa [List.getElem?_append_left hn] at hr)
    · rw [List.getElem?_append_right hn, List.getElem?_singleton] at hr
      split at hr
      · cases hr
        change s.steps = n
        omega
      · cases hr
  · rcases List.mem_append.mp hr with hr | hr
    · exact hdrawn r hr
    · obtain rfl := List.mem_singleton.mp hr
      exact mem_prog_of_currentEntry he
  · rw [List.getLast?_concat, Option.some.injEq] at hr
    exact hr ▸ ⟨rfl, rfl, rfl⟩

/-- R137: what an evaluation leaves, it would leave again. -/
theorem EvaluatedFrom.settled {s t : State} {runup : Bool} (h : EvaluatedFrom s runup t) : t.Settled := by
  have hagain {P : Prop} (hset : t.runup = true ↔ runup = true ∨ P) : t.runup = true ↔ t.runup = true ∨ P :=
    ⟨.inl, fun hor => hor.elim id fun hP => hset.mpr (.inr hP)⟩
  rw [State.Settled]
  rw [EvaluatedFrom] at h ⊢
  cases hmode : t.mode <;> rw [hmode] at h
  case unset => exact ⟨rfl, rfl, rfl⟩
  case add | subtract =>
    obtain ⟨he, -, hset⟩ := h
    exact ⟨he, rfl, hagain hset⟩
  case multiply =>
    obtain ⟨hlaw, hlow, hhigh, -⟩ := h
    exact ⟨hlaw, hlow, hhigh, rfl⟩
  case divide =>
    by_cases h0 : t.i2 = 0
    · obtain ⟨-, -, hset⟩ := (if_pos h0).mp h
      exact (if_pos h0).mpr ⟨rfl, rfl, hset⟩
    · obtain ⟨hlaw, hlt, hsign, hset⟩ := (if_neg h0).mp h
      exact (if_neg h0).mpr ⟨hlaw, hlt, hsign, hagain hset⟩

/-- R100 to R103: a mode-select leaves a mode set. -/
theorem properOf_modeSelect_mode {i : Instr} {s : State} {f : Effect} (hi : i.isModeSelect) (hp : properOf i s = .ok f) :
    f.state.mode ≠ .unset := by
  rcases hi with rfl | rfl | rfl | rfl <;> cases hp <;> exact nofun

/-- R131, R172: a completed instruction that leaves the mode Unset is neither a load nor a mode-select, and nothing else
reaches the ingress and egress slots or runup before a mode is set. -/
theorem unsetIsClean_finishStep {i : Instr} {s : State} {f : Effect} (e : Entry) (hwf : i.wellFormed = true)
    (hp : properOf i s = .ok f) (h : s.UnsetIsClean) : (finishStep e f).UnsetIsClean := by
  intro hunset
  obtain ⟨-, hmode, -⟩ := finishStep_fields e f
  have hselect : ¬i.isModeSelect := fun hi => properOf_modeSelect_mode hi hp (hmode ▸ hunset)
  have hstart : s.mode = .unset := (properOf_mode_of_not_modeSelect hselect hp).symm.trans (hmode ▸ hunset)
  have hload : ¬i.isLoad := fun hi => by
    cases hp.symm.trans (properOf_load_of_unset hwf hi hstart)
  obtain ⟨hip, hi1, hi2⟩ := properOf_ingress hload hp
  obtain ⟨gip, gi1, gi2⟩ := (finishStep_sameOutside e f).ingress
  have heval := finishStep_evaluatedFrom_start e hp
  rw [EvaluatedFrom, hunset] at heval
  obtain ⟨he, hep, hrunup⟩ := heval
  rw [hrunup, gip, gi1, gi2, he, hep, properOf_runup hselect hp, hip, hi1, hi2]
  exact h hstart

/-- Settles O55: ending a run writes the status, of which coherence does not speak; a retired instruction keeps each part
of it. -/
theorem stepKeepsCoherent : Obligations.StepKeepsCoherent := by
  rintro s t ⟨htrace, hbudget, hclean, hsettled⟩ h
  rcases step_ends_or_finishes h with ⟨-, hframe⟩ | ⟨e, i, f, htest, he, hdec, hp, rfl⟩
  · rw [hframe]
    exact ⟨htrace, hbudget, hclean, hsettled⟩
  · obtain ⟨-, hretires⟩ := exec_retires he hp
    obtain ⟨hsteps, -, -, -, hmax, -⟩ := id hretires
    obtain ⟨-, hleft⟩ := (loopTest_eq_true_iff s).mp htest
    refine ⟨traceCoherent_of_retires htrace he hretires, ?_,
      unsetIsClean_finishStep e (decodedInstrIsWellFormed _ _ hdec) hp hclean,
      (finishStep_evaluatedFrom_start e hp).settled⟩
    rw [State.WithinBudget, hsteps, hmax]
    omega

/-! ### Reset and the start of a run (R40, R200) -/

theorem resetRun_read (s : State) (i : Slot) : s.resetRun.read i = 0 := by
  simp [State.read, State.resetRun, State.reset]

/-- Settles O54: every reset value is written out in `State.reset`. -/
theorem resetValues : Obligations.ResetValues :=
  ⟨resetRun_read, fun _ => ⟨rfl, rfl, rfl, rfl, rfl, rfl, rfl⟩, fun _ _ _ _ _ => rfl⟩

theorem resetRun_coherent (s : State) : s.resetRun.Coherent := by
  refine ⟨⟨rfl, nofun, nofun, nofun, fun _ => ⟨rfl, rfl, rfl, rfl, rfl⟩⟩, Nat.zero_le _, fun _ => ?_, rfl, rfl, rfl⟩
  exact ⟨rfl, resetRun_read s slotIP, resetRun_read s slotI1, resetRun_read s slotI2, resetRun_read s slotEP,
    resetRun_read s slotE⟩

theorem start_coherent (text : Text) (maxSteps : Nat) (alu : Bool) (draw : Nat) :
    (State.start text maxSteps alu draw).Coherent :=
  resetRun_coherent (State.start text maxSteps alu draw)

/-- Settles O56: the reset state and the start of a run are both resets. -/
theorem startIsCoherent : Obligations.StartIsCoherent :=
  ⟨resetRun_coherent State.reset, start_coherent⟩

/-! ### Whole runs (R150, R163, R187) -/

theorem runFor_of_not_running {s : State} (h : s.status ≠ .running) (n : Nat) : s.runFor n = s := by
  cases n with
  | zero => rfl
  | succ n => rw [State.runFor, step_of_not_running h]

/-- What every step keeps, a run keeps. -/
theorem runFor_keeps {P : State → Prop} (hstep : ∀ s t, P s → step s = .next t → P t) (n : Nat) {s : State} (h : P s) :
    P (s.runFor n) := by
  induction n generalizing s with
  | zero => exact h
  | succ n ih =>
    rw [State.runFor]
    split
    · exact ih (hstep _ _ h ‹_›)
    · exact h
    · exact h

/-- R163: the steps left in the budget and one end test end a run. -/
theorem runFor_ended {s : State} {n : Nat} (hn : s.maxSteps - s.steps < n) : (s.runFor n).status ≠ .running := by
  induction n generalizing s with
  | zero => omega
  | succ n ih =>
    by_cases hrun : s.status = .running
    · obtain ⟨t, hstep⟩ := exists_step_eq_next hrun
      rw [runFor_succ n hstep]
      rcases step_ends_or_retires hstep with ⟨hended, -⟩ | ⟨htest, -, e, changes, -, hsteps, -, -, -, hmax, -⟩
      · rwa [runFor_of_not_running hended]
      · obtain ⟨-, hleft⟩ := (loopTest_eq_true_iff s).mp htest
        exact ih (by omega)
    · rwa [runFor_of_not_running hrun]

/-- R187: a run that is over answers, and a success hands back its trace. -/
theorem result_of_ended {s : State} (h : s.status ≠ .running) :
    ∃ r, s.result = some r ∧ ∀ ok, r = .success ok → ok.trace = s.trace := by
  cases hstatus : s.status with
  | running => exact absurd hstatus h
  | done =>
    refine ⟨_, result_of_done hstatus, fun ok hok => ?_⟩
    cases hok
    rfl
  | error kind line => exact ⟨_, result_of_error hstatus, nofun⟩

/-- Settles O58: the run ends within its budget, in a coherent state. -/
theorem wholeRunAnswers : Obligations.WholeRunAnswers := by
  intro text maxSteps alu draw
  have hended := runFor_ended (s := State.start text maxSteps alu draw) (n := maxSteps + 1) (Nat.lt_succ_self _)
  obtain ⟨r, hr, hsuccess⟩ := result_of_ended hended
  obtain ⟨⟨⟨hlength, -⟩, hbudget, -⟩, hmax⟩ := runFor_keeps (P := fun s => s.Coherent ∧ s.maxSteps = maxSteps)
    (fun s t ⟨hcoherent, hmax⟩ h => by
      obtain ⟨-, hkeep, -⟩ := programAndConfigurationNeverChange s t h
      exact ⟨stepKeepsCoherent s t hcoherent h, hkeep.trans hmax⟩)
    (maxSteps + 1) ⟨start_coherent text maxSteps alu draw, rfl⟩
  refine ⟨r, hr, fun ok hok => ?_⟩
  rw [hsuccess ok hok, hlength]
  exact hbudget.trans hmax.le

end Sys2Proof.Machine
end

section
/-! PROOFS. What a step does not depend on (R9, R37, R62, R81). `State.reconfigure` exchanges the program store and
TRACE_ALU_CHANGES: no instruction proper and no evaluation reads them, so a step on the exchanged state is the step on the
state itself, exchanged, but for the change list of its record. -/

namespace Sys2Proof.Machine

/-- A state with another program store and another TRACE_ALU_CHANGES. -/
def State.reconfigure (prog : List Entry) (alu : Bool) (s : State) : State :=
  { s with prog := prog, traceAluChanges := alu }

/-- An effect with its state reconfigured. -/
def Effect.reconfigure (prog : List Entry) (alu : Bool) (f : Effect) : Effect :=
  { f with state := f.state.reconfigure prog alu }

section
variable (prog : List Entry) (alu : Bool)

theorem reconfigure_writeAll (s : State) (cs : List Change) :
    (s.reconfigure prog alu).writeAll cs = (s.writeAll cs).reconfigure prog alu := by
  induction cs generalizing s with
  | nil => rfl
  | cons c cs ih => exact ih (s.write c.1 c.2)

theorem evaluate_reconfigure (s : State) :
    evaluate (s.reconfigure prog alu) = (evaluate s).reconfigure prog alu := by
  have hwrites := reconfigure_writeAll prog alu s (evalWrites s)
  exact congrArg (fun u : State => { u with runup := s.runup || evalTrips s }) hwrites

/-- Only the change list of the record depends on the parameter. -/
theorem finishStep_reconfigure (e : Entry) (f : Effect) :
    finishStep e (f.reconfigure prog alu) =
      (retire e (stepChanges (f.reconfigure prog alu))
        (if f.taken then evaluate f.state else (evaluate f.state).advance)).reconfigure prog alu := by
  have heval := evaluate_reconfigure prog alu f.state
  obtain ⟨s, taken, changes⟩ := f
  cases taken with
  | true => exact congrArg (retire e _) heval
  | false => exact congrArg (fun u => retire e _ u.advance) heval

theorem properOf_reconfigure (i : Instr) (s : State) :
    properOf i (s.reconfigure prog alu) = (properOf i s).map (Effect.reconfigure prog alu) := by
  cases i with
  | selectAdd | selectSubtract | selectMultiply | selectDivide | jumpForward n | jumpBackward n => rfl
  | setVariable k n | store k | storePrimed k | print k =>
    simp only [properOf, withVariable_map]
    rfl
  | load k | loadPrimed k =>
    simp only [properOf, withVariable_map, requireMode_map]
    rfl
  | jumpForwardIfRunup n | jumpBackwardIfRunup n =>
    obtain ⟨x, mode, runup⟩ := s
    cases runup <;> rfl

/-! ### The step on a reconfigured state -/

/-- What the reconfigured step leaves, by what the step leaves: the same exchanged, or the finish of the same instruction
proper exchanged. -/
def ReconfiguredNext (s t t' : State) : Prop :=
  t' = t.reconfigure prog alu ∨
    ∃ e f, f.state.traceAluChanges = s.traceAluChanges ∧ t = finishStep e f ∧ t' = finishStep e (f.reconfigure prog alu)

variable {prog alu} {s : State}

theorem loopTest_reconfigure (hlen : prog.length = s.prog.length) :
    (s.reconfigure prog alu).loopTest = s.loopTest := by
  simp [State.loopTest, State.reconfigure, hlen]

theorem fetchDecode_reconfigure (he : (s.reconfigure prog alu).currentEntry = s.currentEntry) :
    fetchDecode (s.reconfigure prog alu) = fetchDecode s := by
  rw [fetchDecode, fetchDecode, he]
  rfl

theorem limitLine_reconfigure (he : (s.reconfigure prog alu).currentEntry = s.currentEntry) :
    (s.reconfigure prog alu).limitLine = s.limitLine := by
  rw [State.limitLine, State.limitLine, he]
  rfl

theorem endRun_reconfigure (hlen : prog.length = s.prog.length)
    (he : (s.reconfigure prog alu).currentEntry = s.currentEntry) :
    (s.reconfigure prog alu).endRun = s.endRun.reconfigure prog alu := by
  have hpc : (s.reconfigure prog alu).pc < (s.reconfigure prog alu).prog.length ↔ s.pc < s.prog.length := by
    simp [State.reconfigure, hlen]
  rw [State.endRun, State.endRun, limitLine_reconfigure he]
  by_cases hlt : s.pc < s.prog.length
  · rw [if_pos hlt, if_pos (hpc.mpr hlt)]
    rfl
  · rw [if_neg hlt, if_neg (mt hpc.mp hlt)]
    rfl

theorem exec_reconfigure {i : Instr} {t : State} (he : (s.reconfigure prog alu).currentEntry = s.currentEntry)
    (h : exec i s = .next t) : ∃ t', exec i (s.reconfigure prog alu) = .next t' ∧ ReconfiguredNext prog alu s t t' := by
  rw [exec_eq_execute, properOf_reconfigure]
  rcases exec_cases h with ⟨e, f, hentry, hp, rfl⟩ | ⟨e, kind, hentry, hp, rfl⟩ | ⟨hentry, rfl⟩
  · obtain ⟨-, -, -, -, -, halu, -⟩ := properOf_keeps hp
    rw [hp]
    exact ⟨_, execute_ok _ (he.trans hentry), .inr ⟨e, f, halu, rfl, rfl⟩⟩
  · rw [hp]
    exact ⟨_, execute_error kind (he.trans hentry), .inl rfl⟩
  · exact ⟨_, by simp only [execute, he, hentry]; rfl, .inl rfl⟩

/-- The simulation: the loop test, the fetch and the end test read the length of the program store and the entry at `pc`
only. -/
theorem step_reconfigure {t : State} (hlen : prog.length = s.prog.length)
    (he : (s.reconfigure prog alu).currentEntry = s.currentEntry) (h : step s = .next t) :
    ∃ t', step (s.reconfigure prog alu) = .next t' ∧ ReconfiguredNext prog alu s t t' := by
  obtain ⟨hrun, -⟩ := step_cases h
  cases htest : s.loopTest with
  | false =>
    rw [step_of_loopTest_false hrun htest] at h
    cases h
    exact ⟨_, step_of_loopTest_false hrun ((loopTest_reconfigure hlen).trans htest),
      .inl (endRun_reconfigure hlen he)⟩
  | true =>
    have htest' : (s.reconfigure prog alu).loopTest = true := (loopTest_reconfigure hlen).trans htest
    cases hfetch : fetchDecode s with
    | ok i =>
      rw [step_of_fetchDecode_ok hrun htest hfetch] at h
      rw [step_of_fetchDecode_ok (s := s.reconfigure prog alu) hrun htest' ((fetchDecode_reconfigure he).trans hfetch)]
      exact exec_reconfigure he h
    | error fault =>
      rw [step_of_fetchDecode_error hrun htest hfetch] at h
      cases h
      exact ⟨_, step_of_fetchDecode_error hrun htest' ((fetchDecode_reconfigure he).trans hfetch), .inl rfl⟩

end

theorem reconfigure_of_traceAluChanges_eq {prog : List Entry} {alu : Bool} {t : State} (h : t.traceAluChanges = alu) :
    t.reconfigure prog alu = { t with prog := prog } := by
  cases h
  rfl

/-- With the parameter as it was, the change list is the same too. -/
theorem finishStep_reconfigure_prog (prog : List Entry) (e : Entry) (f : Effect) :
    finishStep e (f.reconfigure prog f.state.traceAluChanges) =
      (finishStep e f).reconfigure prog f.state.traceAluChanges :=
  finishStep_reconfigure prog f.state.traceAluChanges e f

/-- Settles O13: the simulation for another program store, with the parameter as it was. -/
theorem unfetchedLinesDoNotMatter : Obligations.UnfetchedLinesDoNotMatter := by
  intro s prog hlen he
  refine ⟨fun t h => ?_, fun r h => ?_⟩
  · obtain ⟨t', h', hnext⟩ := step_reconfigure (alu := s.traceAluChanges) hlen he h
    obtain ⟨-, -, halu, -⟩ := programAndConfigurationNeverChange s t h
    have ht' : t' = t.reconfigure prog s.traceAluChanges := by
      rcases hnext with rfl | ⟨e, f, hstart, rfl, rfl⟩
      · rfl
      · rw [← hstart, finishStep_reconfigure_prog]
    rw [ht', reconfigure_of_traceAluChanges_eq halu] at h'
    exact h'
  · have hended : s.status ≠ .running := fun hrun => by
      obtain ⟨t, ht⟩ := exists_step_eq_next hrun
      cases h.symm.trans ht
    have hended' : ({ s with prog := prog } : State).status ≠ .running := hended
    rw [step_of_not_running hended] at h
    rw [step_of_not_running hended', h]

/-- Settles O40: the finish of a step reads the parameter for the change list of its record, and nothing else does. -/
theorem aluTracingAffectsOnlyChangeLists : Obligations.AluTracingAffectsOnlyChangeLists := by
  intro s t t' b h h'
  obtain ⟨u, hu, hnext⟩ := step_reconfigure (prog := s.prog) (alu := b) rfl rfl h
  cases h'.symm.trans hu
  rcases hnext with rfl | ⟨e, f, -, rfl, rfl⟩
  · exact ⟨rfl, rfl, rfl, rfl, rfl, rfl, rfl, rfl⟩
  · rw [finishStep_reconfigure]
    obtain ⟨s, taken, changes⟩ := f
    cases taken <;> simp [finishStep, State.reconfigure]

end Sys2Proof.Machine
end
